-- ==== Sys2Proof/Word.lean ====
section
/-! DEFINITION. The data types of `spec/00_scope.md` section 5: Byte, Word, register index, offset, command word. -/

namespace Sys2Proof

/-- A Byte, 8 bits (`00_scope.md` R10). -/
abbrev Byte := BitVec 8

/-- A Word: 16 bytes as the 128-bit vector of the block's data paths, flat byte `i` in bits `8i+7..8i`
(`00_scope.md` R11, R12). -/
abbrev Word := BitVec 128

/-- A register index: 5 bits, always one of the 32 Word registers (`10_state.md` R21). -/
abbrev Reg := Fin 32

/-- A 16-bit unsigned offset into `MSG`, or a block index (`30_encoding.md` R77). -/
abbrev Offset := BitVec 16

/-- A command word `cmd[31:0]` (`30_encoding.md` R75). -/
abbrev Command := BitVec 32

end Sys2Proof
end

