-- ==== Sys2Proof/Syntax.lean ====
section
/-! DEFINITION. The 27 commands of `spec/30_encoding.md` R86, one constructor per row of `spec/opcode_table.json`. The
operand types carry R77 and R35: every register index, Byte and offset that the types admit is legal. -/

namespace Sys2Proof

/-- A command of the block; the operands in the order of R86's column. -/
inductive Instr
  /-- `NOP` (`46_data_and_system.md` R200). -/
  | nop
  /-- `RDST` (R204). -/
  | rdst
  /-- `LDW rd` (R201). -/
  | ldw (rd : Reg)
  /-- `RDW rs` (R202). -/
  | rdw (rs : Reg)
  /-- `STM off` (R203). -/
  | stm (off : Offset)
  /-- `GFMUL a, b` (`40_galois_field.md` R93). -/
  | gfmul (a b : Byte)
  /-- `SBOX a` (`41_sbox.md` R106). -/
  | sbox (a : Byte)
  /-- `ISBOX a` (R107). -/
  | isbox (a : Byte)
  /-- `SUBW rd` (R108). -/
  | subw (rd : Reg)
  /-- `ISUBW rd` (R109). -/
  | isubw (rd : Reg)
  /-- `SHROWS rd` (`42_aes_round.md` R120). -/
  | shrows (rd : Reg)
  /-- `MIXCOL rd` (R121). -/
  | mixcol (rd : Reg)
  /-- `ADDKEY rd, rs` (R122). -/
  | addkey (rd rs : Reg)
  /-- `AESRND rd, rs` (R123). -/
  | aesrnd (rd rs : Reg)
  /-- `KINIT rs` (`43_key_schedule.md` R143). -/
  | kinit (rs : Reg)
  /-- `KNEXT rd` (R144). -/
  | knext (rd : Reg)
  /-- `TOWORD rd, off` (`44_block_codec.md` R159). -/
  | toword (rd : Reg) (off : Offset)
  /-- `TOBLK idx` (R160). -/
  | toblk (idx : Offset)
  /-- `W2M rd` (R161). -/
  | w2m (rd : Reg)
  /-- `M2W rd` (R162). -/
  | m2w (rd : Reg)
  /-- `BUILD` (`45_compressor.md` R178). -/
  | build
  /-- `BIGSUB` (R181). -/
  | bigsub
  /-- `BIGSHR` (R183). -/
  | bigshr
  /-- `BIGMIX` (R185). -/
  | bigmix
  /-- `ROUND` (R188). -/
  | round
  /-- `FINAL` (R190). -/
  | final
  /-- `COMPRESS` (R192). -/
  | compress
deriving DecidableEq, Repr

/-- The mnemonic of R86. -/
def Instr.mnemonic : Instr → String
  | .nop => "NOP"
  | .rdst => "RDST"
  | .ldw _ => "LDW"
  | .rdw _ => "RDW"
  | .stm _ => "STM"
  | .gfmul _ _ => "GFMUL"
  | .sbox _ => "SBOX"
  | .isbox _ => "ISBOX"
  | .subw _ => "SUBW"
  | .isubw _ => "ISUBW"
  | .shrows _ => "SHROWS"
  | .mixcol _ => "MIXCOL"
  | .addkey _ _ => "ADDKEY"
  | .aesrnd _ _ => "AESRND"
  | .kinit _ => "KINIT"
  | .knext _ => "KNEXT"
  | .toword _ _ => "TOWORD"
  | .toblk _ => "TOBLK"
  | .w2m _ => "W2M"
  | .m2w _ => "M2W"
  | .build => "BUILD"
  | .bigsub => "BIGSUB"
  | .bigshr => "BIGSHR"
  | .bigmix => "BIGMIX"
  | .round => "ROUND"
  | .final => "FINAL"
  | .compress => "COMPRESS"

end Sys2Proof
end

