-- ==== Sys2Proof/WellFormed.lean ====
section
/-! DEFINITION. Which command words are well formed: the match and mask columns of `spec/30_encoding.md` R86, read by
the rule of R78. This is the check by table; `Decode.lean` reads the fields by the formats of R76, and that the two agree
is a statement of its own. A term of `Instr` needs no check: its operand types admit exactly the values R77 calls legal. -/

namespace Sys2Proof

/-- One row of the opcode map (R86). -/
structure OpcodeRow where
  mnemonic : String
  pattern : Command
  mask : Command
deriving DecidableEq, Repr

/-- The 27 rows of R86, in the table's order. -/
def opcodeTable : List OpcodeRow :=
  [
    ⟨"NOP", 0x00000000#32, 0xFFFFFFFF#32⟩,
    ⟨"RDST", 0x01000000#32, 0xFFFFFFFF#32⟩,
    ⟨"LDW", 0x02000000#32, 0xFF07FFFF#32⟩,
    ⟨"RDW", 0x03000000#32, 0xFF07FFFF#32⟩,
    ⟨"STM", 0x04000000#32, 0xFFFF0000#32⟩,
    ⟨"GFMUL", 0x10000000#32, 0xFF0000FF#32⟩,
    ⟨"SBOX", 0x20000000#32, 0xFF00FFFF#32⟩,
    ⟨"ISBOX", 0x21000000#32, 0xFF00FFFF#32⟩,
    ⟨"SUBW", 0x22000000#32, 0xFF07FFFF#32⟩,
    ⟨"ISUBW", 0x23000000#32, 0xFF07FFFF#32⟩,
    ⟨"SHROWS", 0x30000000#32, 0xFF07FFFF#32⟩,
    ⟨"MIXCOL", 0x31000000#32, 0xFF07FFFF#32⟩,
    ⟨"ADDKEY", 0x32000000#32, 0xFF003FFF#32⟩,
    ⟨"AESRND", 0x33000000#32, 0xFF003FFF#32⟩] ++
  [
    ⟨"KINIT", 0x40000000#32, 0xFF07FFFF#32⟩,
    ⟨"KNEXT", 0x41000000#32, 0xFF07FFFF#32⟩,
    ⟨"TOWORD", 0x50000000#32, 0xFF070000#32⟩,
    ⟨"TOBLK", 0x51000000#32, 0xFFFF0000#32⟩,
    ⟨"W2M", 0x52000000#32, 0xFF07FFFF#32⟩,
    ⟨"M2W", 0x53000000#32, 0xFF07FFFF#32⟩,
    ⟨"BUILD", 0x60000000#32, 0xFFFFFFFF#32⟩,
    ⟨"BIGSUB", 0x61000000#32, 0xFFFFFFFF#32⟩,
    ⟨"BIGSHR", 0x62000000#32, 0xFFFFFFFF#32⟩,
    ⟨"BIGMIX", 0x63000000#32, 0xFFFFFFFF#32⟩,
    ⟨"ROUND", 0x64000000#32, 0xFFFFFFFF#32⟩,
    ⟨"FINAL", 0x65000000#32, 0xFFFFFFFF#32⟩,
    ⟨"COMPRESS", 0x66000000#32, 0xFFFFFFFF#32⟩]

/-- A command word spells the row's command iff `(c and mask) = match` (R78). -/
def OpcodeRow.spells (row : OpcodeRow) (c : Command) : Bool :=
  c &&& row.mask == row.pattern

/-- The word has one of the 27 assigned opcodes (R79, the first of the two ways to be illegal). -/
def opcodeAssigned (c : Command) : Bool :=
  opcodeTable.any fun row => c.extractLsb' 24 8 == row.pattern.extractLsb' 24 8

/-- The word matches a row of R86; every other word is illegal (R79). -/
def wellFormedWord (c : Command) : Bool :=
  opcodeTable.any fun row => row.spells c

end Sys2Proof
end

