-- ==== Sys2Proof/Decode.lean ====
section
/-! DEFINITION. Decoding a command word and encoding a command (`spec/30_encoding.md` R75 to R81). Decoding is total:
every word gives one command or is rejected with the reason of R79. -/

namespace Sys2Proof

/-- Why a word is illegal: the two ways of R79. -/
inductive DecodeReject
  /-- The opcode `cmd[31:24]` is not one of the 27 assigned values. -/
  | unassignedOpcode
  /-- The opcode is assigned, but a must-be-zero bit of its format is 1. -/
  | mustBeZeroBitSet
deriving DecidableEq, Repr

/-- `cmd[31:24]` (R76). -/
def opcodeField (c : Command) : BitVec 8 := c.extractLsb' 24 8

/-- `cmd[23:19]`, the first register field (formats R1, R2, M). -/
def firstRegField (c : Command) : Reg := (c.extractLsb' 19 5).toFin

/-- `cmd[18:14]`, the second register field (format R2). -/
def secondRegField (c : Command) : Reg := (c.extractLsb' 14 5).toFin

/-- `cmd[23:16]`, the first Byte immediate (formats I1, I2). -/
def firstByteField (c : Command) : Byte := c.extractLsb' 16 8

/-- `cmd[15:8]`, the second Byte immediate (format I2). -/
def secondByteField (c : Command) : Byte := c.extractLsb' 8 8

/-- `cmd[15:0]`, the offset or index (formats M, MO). -/
def offsetField (c : Command) : Offset := c.extractLsb' 0 16

/-- The command `i`, if the `n` bits of `c` from bit `lo` up, which its format wants zero, are zero (R76, R79). -/
def ifZeroBits (c : Command) (lo n : Nat) (i : Instr) : Except DecodeReject Instr :=
  if c.extractLsb' lo n = 0#n then .ok i else .error .mustBeZeroBitSet

/-- Format Z: `cmd[23:0]` zero. -/
def formatZ (c : Command) (i : Instr) : Except DecodeReject Instr := ifZeroBits c 0 24 i

/-- Format R1: one register, `cmd[18:0]` zero. -/
def formatR1 (c : Command) (f : Reg → Instr) : Except DecodeReject Instr := ifZeroBits c 0 19 (f (firstRegField c))

/-- Format R2: two registers, `cmd[13:0]` zero. -/
def formatR2 (c : Command) (f : Reg → Reg → Instr) : Except DecodeReject Instr :=
  ifZeroBits c 0 14 (f (firstRegField c) (secondRegField c))

/-- Format I1: one Byte, `cmd[15:0]` zero. -/
def formatI1 (c : Command) (f : Byte → Instr) : Except DecodeReject Instr := ifZeroBits c 0 16 (f (firstByteField c))

/-- Format I2: two Bytes, `cmd[7:0]` zero. -/
def formatI2 (c : Command) (f : Byte → Byte → Instr) : Except DecodeReject Instr :=
  ifZeroBits c 0 8 (f (firstByteField c) (secondByteField c))

/-- Format M: a register and an offset, `cmd[18:16]` zero. -/
def formatM (c : Command) (f : Reg → Offset → Instr) : Except DecodeReject Instr :=
  ifZeroBits c 16 3 (f (firstRegField c) (offsetField c))

/-- Format MO: an offset or index, `cmd[23:16]` zero. -/
def formatMO (c : Command) (f : Offset → Instr) : Except DecodeReject Instr := ifZeroBits c 16 8 (f (offsetField c))

/-- The decoder (R78): the opcode picks the row of R86, the row's format its operands and its must-be-zero bits. -/
def decode (c : Command) : Except DecodeReject Instr :=
  match (opcodeField c).toNat with
  | 0x00 => formatZ c .nop
  | 0x01 => formatZ c .rdst
  | 0x02 => formatR1 c .ldw
  | 0x03 => formatR1 c .rdw
  | 0x04 => formatMO c .stm
  | 0x10 => formatI2 c .gfmul
  | 0x20 => formatI1 c .sbox
  | 0x21 => formatI1 c .isbox
  | 0x22 => formatR1 c .subw
  | 0x23 => formatR1 c .isubw
  | 0x30 => formatR1 c .shrows
  | 0x31 => formatR1 c .mixcol
  | 0x32 => formatR2 c .addkey
  | 0x33 => formatR2 c .aesrnd
  | 0x40 => formatR1 c .kinit
  | 0x41 => formatR1 c .knext
  | 0x50 => formatM c .toword
  | 0x51 => formatMO c .toblk
  | 0x52 => formatR1 c .w2m
  | 0x53 => formatR1 c .m2w
  | 0x60 => formatZ c .build
  | 0x61 => formatZ c .bigsub
  | 0x62 => formatZ c .bigshr
  | 0x63 => formatZ c .bigmix
  | 0x64 => formatZ c .round
  | 0x65 => formatZ c .final
  | 0x66 => formatZ c .compress
  | _ => .error .unassignedOpcode

/-- A register index as its 5-bit field (R77). -/
def regBits (r : Reg) : BitVec 5 := BitVec.ofFin r

/-- A word of format Z (R76). -/
def encodeZ (op : BitVec 8) : Command := op ++ 0#24

/-- A word of format R1. -/
def encodeR1 (op : BitVec 8) (r : Reg) : Command := op ++ (regBits r ++ 0#19)

/-- A word of format R2. -/
def encodeR2 (op : BitVec 8) (rd rs : Reg) : Command := op ++ (regBits rd ++ (regBits rs ++ 0#14))

/-- A word of format I1. -/
def encodeI1 (op : BitVec 8) (a : Byte) : Command := op ++ (a ++ 0#16)

/-- A word of format I2. -/
def encodeI2 (op : BitVec 8) (a b : Byte) : Command := op ++ (a ++ (b ++ 0#8))

/-- A word of format M. -/
def encodeM (op : BitVec 8) (rd : Reg) (off : Offset) : Command := op ++ (regBits rd ++ (0#3 ++ off))

/-- A word of format MO. -/
def encodeMO (op : BitVec 8) (off : Offset) : Command := op ++ (0#8 ++ off)

/-- The word of a command: the opcode in bits 31:24, each operand in its field, zero everywhere else (R81). -/
def encode : Instr → Command
  | .nop => encodeZ 0x00#8
  | .rdst => encodeZ 0x01#8
  | .ldw rd => encodeR1 0x02#8 rd
  | .rdw rs => encodeR1 0x03#8 rs
  | .stm off => encodeMO 0x04#8 off
  | .gfmul a b => encodeI2 0x10#8 a b
  | .sbox a => encodeI1 0x20#8 a
  | .isbox a => encodeI1 0x21#8 a
  | .subw rd => encodeR1 0x22#8 rd
  | .isubw rd => encodeR1 0x23#8 rd
  | .shrows rd => encodeR1 0x30#8 rd
  | .mixcol rd => encodeR1 0x31#8 rd
  | .addkey rd rs => encodeR2 0x32#8 rd rs
  | .aesrnd rd rs => encodeR2 0x33#8 rd rs
  | .kinit rs => encodeR1 0x40#8 rs
  | .knext rd => encodeR1 0x41#8 rd
  | .toword rd off => encodeM 0x50#8 rd off
  | .toblk idx => encodeMO 0x51#8 idx
  | .w2m rd => encodeR1 0x52#8 rd
  | .m2w rd => encodeR1 0x53#8 rd
  | .build => encodeZ 0x60#8
  | .bigsub => encodeZ 0x61#8
  | .bigshr => encodeZ 0x62#8
  | .bigmix => encodeZ 0x63#8
  | .round => encodeZ 0x64#8
  | .final => encodeZ 0x65#8
  | .compress => encodeZ 0x66#8

/-- The instruction the decoder reads from an opcode-table word: its low `nbits` bits, every bit above zero. A command
is one 32-bit word (R75, R80), so a number that does not fit 32 bits spells none. -/
def decodeTableWord (nbits w : Nat) : Option Instr :=
  if w % 2 ^ nbits < 2 ^ 32 then
    match decode (BitVec.ofNat 32 (w % 2 ^ nbits)) with
    | .ok i => some i
    | .error _ => none
  else none

end Sys2Proof
end

