-- ==== Sys2Proof/Machine/Flags.lean ====
section
/-! DEFINITION. The `STATUS` register (`spec/10_state.md` R27, R28). `ERR` is the only flag; no command computes one. -/

namespace Sys2Proof.Machine

/-- The two fault causes (`spec/60_exceptions.md` section 2). -/
inductive Cause
  /-- Cause 1 (R211). -/
  | illegalCommand
  /-- Cause 2 (R212). -/
  | addressRange
deriving DecidableEq, Repr

/-- The code recorded in `STATUS.CAUSE`. -/
def causeCode : Cause → BitVec 2
  | .illegalCommand => 1
  | .addressRange => 2

/-- `STATUS.ERR`, bit 0 (R27). -/
def statusErr (st : BitVec 8) : Bool := st.getLsbD 0

/-- `STATUS.CAUSE`, bits 2:1 (R27). -/
def statusCause (st : BitVec 8) : BitVec 2 := st.extractLsb' 1 2

/-- `STATUS` as software reads it: bits 7:3 are hard-wired zero (R27, U12; log 12). -/
def statusRead (st : BitVec 8) : BitVec 8 := 0#5 ++ st.extractLsb' 0 3

/-- `STATUS` after fault entry with cause `c`: `ERR = 1`, `CAUSE = c`, so 0x03 or 0x05 (`60_exceptions.md` R214). -/
def statusOfCause (c : Cause) : BitVec 8 := 0#5 ++ causeCode c ++ 1#1

end Sys2Proof.Machine
end

