-- ==== Sys2Proof/Machine/Bytes.lean ====
section
/-! DEFINITION. The byte view of a Word (`spec/00_scope.md` R11 to R14). -/

namespace Sys2Proof.Machine

/-- `w[i]`, flat byte `i` of a Word: bits `8i+7..8i` (R12). -/
def byteAt (w : Word) (i : Nat) : Byte := w.extractLsb' (8 * i) 8

/-- The Word whose flat byte `i` is `f i`, for i = 0..15 (R11, R12). -/
def wordOfBytes (f : Nat → Byte) : Word :=
  (List.range 16).foldr (fun i acc => acc <<< 8 ||| (f i).setWidth 128) 0

/-- `zext_128(b)`: flat byte 0 is `b`, the others 0x00 (R14). -/
def zext128 (b : Byte) : Word := b.setWidth 128

/-- `mat(w)[r][c]`, the column-major matrix view of a Word (R11). -/
def matrixAt (w : Word) (r c : Nat) : Byte := byteAt w (4 * c + r)

/-- The register whose index is the number `n` (0 <= n <= 31). -/
def regOf (n : Nat) : Reg := Fin.ofNat 32 n

end Sys2Proof.Machine
end

