-- ==== Sys2Proof/Config.lean ====
section
/-! DEFINITION. What an instance of the block fixes (`00_scope.md` R8), and the free values: constants without a
body for what the spec leaves open. -/

namespace Sys2Proof.Config

/-- SWITCH `GRID_W67`: how Block words 6 and 7 enter the StateGrid (`45_compressor.md` R179, C1). -/
inductive GridW67
  | per46
  | sourceDefect
deriving DecidableEq, Repr

/-- SWITCH `BIGMIX_AXIS`: which four Words the grid-level mix combines (`45_compressor.md` R186, C7). -/
inductive BigmixAxis
  | column
  | row
deriving DecidableEq, Repr

/-- SWITCH `SUBWORD_ORDER`: the order of the 16 Words in the AES pass (`45_compressor.md` R180). -/
inductive SubwordOrder
  | columnMajor
  | rowMajor
deriving DecidableEq, Repr

/-- The parameters of one instance of the block (`00_scope.md` R8; log 8, 9, 10). `extraBlocks` gives the OPEN
parameter `MSG_BYTES`: the memory holds `128 * extraBlocks + 128` bytes, so that every multiple of 128 from 128 to
65536 is one value of the field and nothing else is. -/
structure Params where
  salt : Word
  extraBlocks : Fin 512
  perwordMix : Bool
  gridW67 : GridW67
  bigmixAxis : BigmixAxis
  subwordOrder : SubwordOrder
deriving DecidableEq, Repr

/-- The OPEN parameter `SALT` (`00_scope.md` R9): a free constant (DESIGN CHOICE, safe: log 8). -/
opaque salt : Word

/-- The OPEN parameter `MSG_BYTES`, as the number of Blocks beyond the first: a free constant (DESIGN CHOICE, safe:
log 9). -/
opaque extraBlocks : Fin 512

/-- The instance a run from `State.reset` is on: the OPEN parameters free, each SWITCH at the spec's default
(`00_scope.md` R8). -/
def instanceParams : Params where
  salt := salt
  extraBlocks := extraBlocks
  perwordMix := true
  gridW67 := .per46
  bigmixAxis := .column
  subwordOrder := .columnMajor

/-- The `n`-th free Word: what `x[0..31]` and `K` hold after reset and after the reset step, until something writes them
(`10_state.md` R38, R39, `70_reset_and_hazards.md` R230, R231, U1, U2; DESIGN CHOICE: log 3, 6). -/
opaque freeWord : Nat → Word

/-- The value of the `din` port while the host presents no command: free (DESIGN CHOICE, safe: log 2). -/
opaque undrivenDin : Word

end Sys2Proof.Config
end

