-- ==== Sys2Proof/Machine/RegFile.lean ====
section
/-! DEFINITION. The register file as a whole, and the free values a reset leaves in it. -/

namespace Sys2Proof.Machine

/-- The register file with `f r` in register `r`. Irreducible for the elaborator, which would otherwise unfold all 32
entries whenever it compares two states; the kernel evaluates it. -/
@[irreducible] def regFile (f : Reg → Word) : Vector Word 32 := Vector.ofFn f

/-- A register file that nothing has written: register `r` holds free value `n + r` (`70_reset_and_hazards.md` R231:
no value may be assumed; log 3, 6). -/
def freeRegs (n : Nat) : Vector Word 32 := regFile fun r => Config.freeWord (n + r.val)

end Sys2Proof.Machine
end

