-- ==== Sys2Proof/Machine/State.lean ====
section
/-! DEFINITION. The state of the block (`spec/10_state.md`), what the host still presents to it, the reasons a step can
stop, and the state right after reset. -/

namespace Sys2Proof.Machine

/-- What the host does at the block's ports in one step: drive `rst` (`70_reset_and_hazards.md` R230), or present a
command word with its `din` value (`30_encoding.md` R75). -/
inductive HostInput
  | rst
  | command (cmd : Command) (din : Word)
deriving DecidableEq, Repr

/-- The bytes of `MSG` written since reset, addresses strictly rising (`10_state.md` R30, R39; log 5). -/
abbrev Memory := List Host.Cell

/-- The block's state, the instance's parameters, and the host's list. -/
structure State where
  /-- The 32 Word registers; banks S = x0..x15, V = x16..x23, B = x24..x31 (`10_state.md` R21, R22). -/
  x : Vector Word 32
  /-- The rolling counter key `K` (`10_state.md` R24). -/
  k : Word
  /-- `STATUS`: bit 0 `ERR`, bits 2:1 `CAUSE`, bits 7:3 hard-wired zero (`10_state.md` R27). -/
  status : BitVec 8
  /-- The output register `DOUT` (`10_state.md` R29). -/
  dout : Word
  /-- The message memory `MSG` (`10_state.md` R30). -/
  msg : Memory
  /-- The instance's parameters, `SALT` and `MSG_BYTES` among them (`00_scope.md` R8, `10_state.md` R25; log 8, 9, 10). -/
  params : Config.Params
  /-- The model's own: the host inputs not yet consumed, the next one first (`10_state.md` R26, R32; log 1). -/
  pending : List HostInput
  /-- The model's own: how many free values have been drawn (log 7). -/
  free : Nat
deriving DecidableEq, Repr

/-- Why the model stops. The block's own two faults are no stops: they are next states (`60_exceptions.md` R214). -/
inductive Fault
  /-- Raised by `TOWORD` and `TOBLK` when they read a `MSG` byte that nothing has written since reset: the model-level
  fault of `10_state.md` R39 and U1. Safe: the hardware goes on with an unspecified value, and nothing is claimed. -/
  | unwrittenMsg
deriving DecidableEq, Repr

/-- Why the model has no meaning to give. -/
inductive Refusal
  /-- Raised by `exec`'s arm of an instruction that has no meaning yet. Safe. No arm of this model raises it. -/
  | notModelled (mnemonic : String)
deriving DecidableEq, Repr

/-- The state right after reset on the instance `p` (`10_state.md` R38): `STATUS` and `DOUT` zero, no byte of `MSG`
written. The registers and `K`, which the spec leaves unspecified, hold the free values 0 to 32, as after a reset step: a
command that reads one before anything has written it gets a value of which nothing can be proved (`10_state.md` R39,
`93_implementation_defined.md` U1, U2; DESIGN CHOICE: log 3). -/
def State.resetWith (p : Config.Params) : State where
  x := freeRegs 0
  k := Config.freeWord 32
  status := 0
  dout := 0
  msg := []
  params := p
  pending := []
  free := 33

/-- The state right after reset, nothing presented yet (`10_state.md` R38; log 1). -/
def State.reset : State := State.resetWith Config.instanceParams

end Sys2Proof.Machine
end

