-- ==== Sys2Proof/Machine/Operands.lean ====
section
/-! DEFINITION. The operand forms of the commands: registers, the `din` port, memory offsets and block indices, and the
three register banks (`spec/30_encoding.md` R77, `spec/46_data_and_system.md` R206, `spec/10_state.md` R22). -/

namespace Sys2Proof.Machine

/-- `x[r]` read (`00_scope.md` R14). -/
def State.readX (s : State) (r : Reg) : Word := s.x.get r

/-- `x[r] <- v` (`00_scope.md` R14). No register is hard-wired (`10_state.md` R21). -/
def State.writeX (s : State) (r : Reg) (v : Word) : State :=
  { s with x := s.x.set r.val v r.isLt }

/-- `x[n]` for a number `n`, as the bank commands name their registers. -/
def State.readN (s : State) (n : Nat) : Word := s.readX (regOf n)

/-- Simultaneous assignment to a bank (`00_scope.md` R14, R15): `x[base + i] <- f i` for i = 0 .. count-1, every `f i`
read on the state before. -/
def State.writeBank (s : State) (base count : Nat) (f : Nat → Word) : State :=
  { s with
    x := regFile fun r =>
      if base ≤ r.val ∧ r.val < base + count then f (r.val - base) else s.readX r }

/-- The 128-bit value on `din`: what the host presents with the command being executed (`30_encoding.md` R75; with no
command presented the port is undriven, log 2). -/
def State.din (s : State) : Word :=
  match s.pending with
  | .command _ d :: _ => d
  | _ => Config.undrivenDin

/-- The size of `MSG` in bytes (`20_memory.md` R51): a multiple of 128 from 128 to 65536. -/
def State.msgBytes (s : State) : Nat := 128 * s.params.extraBlocks.val + 128

/-- The byte offset an offset operand names: unsigned, not scaled, not wrapped (`20_memory.md` R51). -/
def byteOffset (off : Offset) : Nat := off.toNat

/-- The byte offset a block index names: `128 * idx`, not truncated (`20_memory.md` R51, R56). -/
def blockOffset (idx : Offset) : Nat := 128 * idx.toNat

end Sys2Proof.Machine
end

