-- ==== Sys2Proof/Machine/Ops.lean ====
section
/-! DEFINITION. The named operations over the state: the message memory, `DOUT`, fault entry and the reset step, and
accepting a presented command. -/

namespace Sys2Proof.Machine

/-- The form every memory has: addresses strictly rising. An unlisted address has no value, so no entry can equal what
an unlisted address reads as. -/
abbrev Memory.wf (m : Memory) : Prop := List.Pairwise (fun c d : Host.Cell => c.1 < d.1) m

/-- The byte at address `a`, if something has written it (`10_state.md` R39: `MSG` is tracked per byte). -/
def Memory.read : Memory → Nat → Option Byte
  | [], _ => none
  | (b, v) :: m, a => if a = b then some v else Memory.read m a

/-- `MSG[a] <- v`, keeping the addresses strictly rising. -/
def Memory.write : Memory → Nat → Byte → Memory
  | [], a, v => [(a, v)]
  | (b, w) :: m, a, v =>
    if a < b then (a, v) :: (b, w) :: m
    else if a = b then (a, v) :: m
    else (b, w) :: Memory.write m a v

/-- Every one of the `n` bytes from `a` up has been written (`10_state.md` R39). -/
def Memory.written (m : Memory) (a n : Nat) : Bool :=
  (List.range n).all fun i => (m.read (a + i)).isSome

/-- The Word at address `a`: flat byte `i` from `a + i` (`20_memory.md` R52). Used only where its bytes are written. -/
def Memory.wordAt (m : Memory) (a : Nat) : Word :=
  wordOfBytes fun i => (m.read (a + i)).getD 0

/-- `MemWrite(a, 16, w)` past the range check: flat byte `i` to `a + i` (`20_memory.md` R52, R58). Irreducible for the
elaborator, as `regFile` is; the kernel evaluates it. -/
@[irreducible] def Memory.writeWord (m : Memory) (a : Nat) (w : Word) : Memory :=
  (List.range 16).foldl (fun m i => m.write (a + i) (byteAt w i)) m

/-- The whole access of `n` bytes from `a` lies inside `MSG` (`20_memory.md` R56): computed on natural numbers. -/
def State.inMsg (s : State) (a n : Nat) : Bool := a + n ≤ s.msgBytes

/-- `MSG` replaced. -/
def State.withMsg (s : State) (m : Memory) : State := { s with msg := m }

/-- `DOUT <- w` (`10_state.md` R29). -/
def State.writeDout (s : State) (w : Word) : State := { s with dout := w }

/-- `K <- w`. -/
def State.withK (s : State) (w : Word) : State := { s with k := w }

/-- The block is halted: `STATUS.ERR = 1` (`60_exceptions.md` R215). -/
def State.halted (s : State) : Bool := statusErr s.status

/-- TAKING A FAULT (`60_exceptions.md` R214): `STATUS` records it; nothing else changes and nothing else is saved. -/
def State.raise (s : State) (c : Cause) : State := { s with status := statusOfCause c }

/-- THE ONLY RETURN FROM A FAULT, the reset step (`70_reset_and_hazards.md` R230, R231, `60_exceptions.md` R217):
`STATUS` and `DOUT` zero; `x[0..31]` and `K` are free values, `MSG` is unwritten; the parameters stay. -/
def State.takeReset (s : State) : State :=
  { s with
    x := freeRegs s.free
    k := Config.freeWord (s.free + 32)
    status := 0
    dout := 0
    msg := []
    free := s.free + 33 }

/-- The host moves on to its next input (`10_state.md` R26). -/
def State.advance (s : State) : State := { s with pending := s.pending.tail }

/-- The one word that is executed while the block is halted (`60_exceptions.md` R215). -/
def rdstWord : Command := 0x01000000#32

/-- What becomes of a presented word: the first two checks of `60_exceptions.md` R216. -/
inductive Acceptance
  /-- Halted, and the word is not `RDST`: not decoded, no effect (R215). -/
  | discarded
  /-- The word spells no command (R211). -/
  | illegal
  /-- The word spells this command, and it is executed. -/
  | execute (i : Instr)
deriving DecidableEq, Repr

/-- Checks (1) and (2) of `60_exceptions.md` R216, in that order. -/
def State.accept (s : State) (cmd : Command) : Acceptance :=
  if s.halted && cmd != rdstWord then .discarded
  else
    match decode cmd with
    | .error _ => .illegal
    | .ok i => .execute i

end Sys2Proof.Machine
end

