-- ==== Sys2Proof/Machine/GaloisField.lean ====
section
/-! DEFINITION. Family 1, GaloisField: `gmul` and `GFMUL` (`spec/40_galois_field.md`). -/

namespace Sys2Proof.Machine

/-- The loop of R90, `n` iterations from the accumulator `p` and the operands `a`, `b`: the test of `b[0]` uses `a`
before it is doubled. -/
def gmulLoop : Nat → Byte → Byte → Byte → Byte
  | 0, p, _, _ => p
  | n + 1, p, a, b =>
    gmulLoop n
      (if b.getLsbD 0 then p ^^^ a else p)
      (if a.getLsbD 7 then (a <<< 1) ^^^ 0x1B#8 else a <<< 1)
      (b >>> 1)

/-- `gmul(a, b)`: multiplication in GF(2^8) under 0x11B, always eight iterations (R90). -/
def gmul (a b : Byte) : Byte := gmulLoop 8 0 a b

/-- `GFMUL a, b` (R93): `DOUT <- zext_128(gmul(a, b))`. -/
def execGfmul (a b : Byte) (s : State) : Host.Outcome State Fault Refusal :=
  .next (s.writeDout (zext128 (gmul a b)))

end Sys2Proof.Machine
end

