-- ==== Sys2Proof/Machine/AesRound.lean ====
section
/-! DEFINITION. Family 3, the AES round: `SHROWS`, `MIXCOL`, `ADDKEY`, `AESRND` (`spec/42_aes_round.md`). -/

namespace Sys2Proof.Machine

/-- `shiftrows(w)` (R116): row `r` rotated left by `r`, `mat(w')[r][c] = mat(w)[r][(c + r) mod 4]`; flat byte `i` is
row `i mod 4`, column `i div 4`. -/
def shiftRows (w : Word) : Word :=
  wordOfBytes fun i => matrixAt w (i % 4) ((i / 4 + i % 4) % 4)

/-- The four bytes of a column, rows 0 to 3. -/
structure Column where
  a : Byte
  b : Byte
  c : Byte
  d : Byte
deriving DecidableEq, Repr

/-- The MDS combination of R117. -/
def mds (q : Column) : Column where
  a := gmul 2 q.a ^^^ gmul 3 q.b ^^^ q.c ^^^ q.d
  b := q.a ^^^ gmul 2 q.b ^^^ gmul 3 q.c ^^^ q.d
  c := q.a ^^^ q.b ^^^ gmul 2 q.c ^^^ gmul 3 q.d
  d := gmul 3 q.a ^^^ q.b ^^^ q.c ^^^ gmul 2 q.d

/-- The entry of a column at row `r`. -/
def columnAt (q : Column) (r : Nat) : Byte :=
  match r with
  | 0 => q.a
  | 1 => q.b
  | 2 => q.c
  | _ => q.d

/-- Column `c` of a Word's matrix view. -/
def wordColumn (w : Word) (c : Nat) : Column :=
  ⟨matrixAt w 0 c, matrixAt w 1 c, matrixAt w 2 c, matrixAt w 3 c⟩

/-- `mixcolumns(w)` (R117): each column replaced by its MDS combination, all from the old Word. -/
def mixColumns (w : Word) : Word :=
  wordOfBytes fun i => columnAt (mds (wordColumn w (i / 4))) (i % 4)

/-- `addroundkey(w, k)` (R118): byte-by-byte exclusive-or. -/
def addRoundKey (w key : Word) : Word := w ^^^ key

/-- `aesround(w, k)` (R119). -/
def aesRound (w key : Word) : Word := addRoundKey (mixColumns (shiftRows (substitute w))) key

/-- The AES round inside `BIGSUB` (R119, R127): with `PERWORD_MIX` false it leaves `mixcolumns` out. -/
def perWordRound (mix : Bool) (w key : Word) : Word :=
  if mix then aesRound w key else addRoundKey (shiftRows (substitute w)) key

/-- `SHROWS rd` (R120): `x[rd] <- shiftrows(x[rd])`. -/
def execShrows (rd : Reg) (s : State) : Host.Outcome State Fault Refusal :=
  .next (s.writeX rd (shiftRows (s.readX rd)))

/-- `MIXCOL rd` (R121): `x[rd] <- mixcolumns(x[rd])`. -/
def execMixcol (rd : Reg) (s : State) : Host.Outcome State Fault Refusal :=
  .next (s.writeX rd (mixColumns (s.readX rd)))

/-- `ADDKEY rd, rs` (R122): `x[rd] <- addroundkey(x[rd], x[rs])`, both read before the write. -/
def execAddkey (rd rs : Reg) (s : State) : Host.Outcome State Fault Refusal :=
  .next (s.writeX rd (addRoundKey (s.readX rd) (s.readX rs)))

/-- `AESRND rd, rs` (R123): `x[rd] <- aesround(x[rd], x[rs])`; it always mixes (R127). -/
def execAesrnd (rd rs : Reg) (s : State) : Host.Outcome State Fault Refusal :=
  .next (s.writeX rd (aesRound (s.readX rd) (s.readX rs)))

end Sys2Proof.Machine
end

