-- ==== Sys2Proof/Machine/BlockCodec.lean ====
section
/-! DEFINITION. Family 5, BlockCodec: `TOWORD`, `TOBLK`, `W2M`, `M2W` (`spec/44_block_codec.md`). -/

namespace Sys2Proof.Machine

/-- `wordToMatrix(w)`: `m[r][c] = w[4c + r]` (R157). -/
def wordToMatrix (w : Word) (r c : Nat) : Byte := matrixAt w r c

/-- `matrixToWord(m)`: the Word with `w[4c + r] = m[r][c]` (R157). -/
def matrixToWord (m : Nat → Nat → Byte) : Word := wordOfBytes fun i => m (i % 4) (i / 4)

/-- A matrix stored row by row: `t[4r + c] = m[r][c]` (R157). -/
def storeRows (m : Nat → Nat → Byte) : Word := wordOfBytes fun i => m (i / 4) (i % 4)

/-- The matrix a Word stores row by row: `m[r][c] = t[4r + c]` (R157). -/
def loadRows (t : Word) (r c : Nat) : Byte := byteAt t (4 * r + c)

/-- `TOWORD rd, off` (R159): the range check of R56, then `x[rd] <- MemRead(off, 16)`. A byte nothing has written stops
the model (`10_state.md` R39; log 5). -/
def execToword (rd : Reg) (off : Offset) (s : State) : Host.Outcome State Fault Refusal :=
  if s.inMsg (byteOffset off) 16 then
    if s.msg.written (byteOffset off) 16 then .next (s.writeX rd (s.msg.wordAt (byteOffset off)))
    else .fault .unwrittenMsg
  else .next (s.raise .addressRange)

/-- `TOBLK idx` (R160): the range check of R56, then `x[24 + j] <- MemRead(128*idx + 16*j, 16)` for j = 0..7, all from
the old memory. A byte nothing has written stops the model (`10_state.md` R39; log 5). -/
def execToblk (idx : Offset) (s : State) : Host.Outcome State Fault Refusal :=
  if s.inMsg (blockOffset idx) 128 then
    if s.msg.written (blockOffset idx) 128 then
      .next (s.writeBank 24 8 fun j => s.msg.wordAt (blockOffset idx + 16 * j))
    else .fault .unwrittenMsg
  else .next (s.raise .addressRange)

/-- `W2M rd` (R161): the register's Word replaced by its matrix stored row by row. -/
def execW2m (rd : Reg) (s : State) : Host.Outcome State Fault Refusal :=
  .next (s.writeX rd (storeRows (wordToMatrix (s.readX rd))))

/-- `M2W rd` (R162): the matrix the register stores row by row replaced by its flat Word. -/
def execM2w (rd : Reg) (s : State) : Host.Outcome State Fault Refusal :=
  .next (s.writeX rd (matrixToWord (loadRows (s.readX rd))))

end Sys2Proof.Machine
end

