-- ==== Sys2Proof/Machine/KeySchedule.lean ====
section
/-! DEFINITION. Family 4, KeySchedule: `KINIT`, `KNEXT` (`spec/43_key_schedule.md`). -/

namespace Sys2Proof.Machine

/-- The key after one advance (R142): byte 0 plus one modulo 256, bytes 1 to 15 unchanged, no carry. -/
def keyAdvanced (key : Word) : Word :=
  wordOfBytes fun i => if i = 0 then byteAt key 0 + 1 else byteAt key i

/-- `nextprimarykey()` (R142): the Word returned is the value before the increment; `K[0]` is incremented. -/
def State.nextPrimaryKey (s : State) : Word × State := (s.k, s.withK (keyAdvanced s.k))

/-- `KINIT rs` (R143): `K <- x[rs]`. -/
def execKinit (rs : Reg) (s : State) : Host.Outcome State Fault Refusal :=
  .next (s.withK (s.readX rs))

/-- `KNEXT rd` (R144): `x[rd] <- nextprimarykey()`. -/
def execKnext (rd : Reg) (s : State) : Host.Outcome State Fault Refusal :=
  .next (s.nextPrimaryKey.2.writeX rd s.nextPrimaryKey.1)

end Sys2Proof.Machine
end

