-- ==== Sys2Proof/Machine/Compressor.lean ====
section
/-! DEFINITION. Family 6, the Compressor: `BUILD`, `BIGSUB`, `BIGSHR`, `BIGMIX`, `ROUND`, `FINAL`, `COMPRESS`
(`spec/45_compressor.md`). Grid cell `S[r][c]` is `x[4c + r]`. -/

namespace Sys2Proof.Machine

/-- The grid `BUILD` makes (R178): columns 0 and 1 from V, columns 2 and 3 from B. Under `GRID_W67 = source_defect`
cells 14 and 15 receive block word 5 (R179). -/
def State.build (s : State) : State :=
  s.writeBank 0 16 fun n =>
    if s.params.gridW67 = .sourceDefect ∧ (n = 14 ∨ n = 15) then s.readN 29
    else if n < 8 then s.readN (16 + n)
    else s.readN (24 + (n - 8))

/-- One iteration of `BIGSUB` (R181): cell `n` through two AES rounds, the first keyed with the next primary key, the
second with `SALT`. -/
def State.bigsubCell (s : State) (n : Nat) : State :=
  let mix := s.params.perwordMix
  let k1 := s.nextPrimaryKey.1
  let s1 := s.nextPrimaryKey.2
  s1.writeX (regOf n) (perWordRound mix (perWordRound mix (s1.readN n) k1) s1.params.salt)

/-- The order in which `BIGSUB` visits the 16 cells (R180). -/
def subwordCells : Config.SubwordOrder → List Nat
  | .columnMajor => [0, 1, 2, 3, 4, 5, 6, 7, 8, 9, 10, 11, 12, 13, 14, 15]
  | .rowMajor => [0, 4, 8, 12, 1, 5, 9, 13, 2, 6, 10, 14, 3, 7, 11, 15]

/-- `BIGSUB`'s pass over the grid (R181): the iterations take effect in order, each using the `K` left before it. -/
def State.bigsub (s : State) : State :=
  (subwordCells s.params.subwordOrder).foldl State.bigsubCell s

/-- `BIGSHR` (R183): `S'[r][c] = S[r][(c + r) mod 4]`, whole Words. -/
def State.bigshr (s : State) : State :=
  s.writeBank 0 16 fun n => s.readN (4 * ((n / 4 + n % 4) % 4) + n % 4)

/-- The four bytes at index `b` of grid column `c`, rows 0 to 3 (R185). -/
def State.gridColumn (s : State) (c b : Nat) : Column :=
  ⟨byteAt (s.readN (4 * c)) b, byteAt (s.readN (4 * c + 1)) b,
    byteAt (s.readN (4 * c + 2)) b, byteAt (s.readN (4 * c + 3)) b⟩

/-- The four bytes at index `b` of grid row `r`, columns 0 to 3 (R186, the alternative). -/
def State.gridRow (s : State) (r b : Nat) : Column :=
  ⟨byteAt (s.readN r) b, byteAt (s.readN (4 + r)) b,
    byteAt (s.readN (8 + r)) b, byteAt (s.readN (12 + r)) b⟩

/-- `BIGMIX` (R185; R186 under `BIGMIX_AXIS = row`): every byte index of every grid column (row) through the MDS
combination, all 256 new bytes from old bytes. -/
def State.bigmix (s : State) : State :=
  s.writeBank 0 16 fun n =>
    wordOfBytes fun b =>
      match s.params.bigmixAxis with
      | .column => columnAt (mds (s.gridColumn (n / 4) b)) (n % 4)
      | .row => columnAt (mds (s.gridRow (n % 4) b)) (n / 4)

/-- One of the ten repetitions of step 2 (R188). -/
def State.round (s : State) : State := s.bigsub.bigshr.bigmix

/-- `FINAL` (R190): `V[i] <- V[i] xor B[i] xor S[i mod 4][j] xor S[i mod 4][l]` with `(j, l) = (0, 2)` if `i < 4`,
else `(1, 3)`. -/
def State.final (s : State) : State :=
  s.writeBank 16 8 fun i =>
    let r := i % 4
    let j := if i < 4 then 0 else 1
    let l := if i < 4 then 2 else 3
    s.readN (16 + i) ^^^ s.readN (24 + i) ^^^ s.readN (4 * j + r) ^^^ s.readN (4 * l + r)

/-- `n` rounds in a row. -/
def State.rounds (s : State) : Nat → State
  | 0 => s
  | n + 1 => (s.rounds n).round

/-- `COMPRESS` (R192): `BUILD`, ten `ROUND`s (R176), `FINAL`. -/
def State.compress (s : State) : State := (s.build.rounds 10).final

/-- `BUILD` (R178). -/
def execBuild (s : State) : Host.Outcome State Fault Refusal := .next s.build

/-- `BIGSUB` (R181). -/
def execBigsub (s : State) : Host.Outcome State Fault Refusal := .next s.bigsub

/-- `BIGSHR` (R183). -/
def execBigshr (s : State) : Host.Outcome State Fault Refusal := .next s.bigshr

/-- `BIGMIX` (R185). -/
def execBigmix (s : State) : Host.Outcome State Fault Refusal := .next s.bigmix

/-- `ROUND` (R188). -/
def execRound (s : State) : Host.Outcome State Fault Refusal := .next s.round

/-- `FINAL` (R190). -/
def execFinal (s : State) : Host.Outcome State Fault Refusal := .next s.final

/-- `COMPRESS` (R192). -/
def execCompress (s : State) : Host.Outcome State Fault Refusal := .next s.compress

end Sys2Proof.Machine
end

