-- ==== Sys2Proof/Machine/DataSystem.lean ====
section
/-! DEFINITION. Family 7, data movement and status: `NOP`, `RDST`, `LDW`, `RDW`, `STM`
(`spec/46_data_and_system.md`). -/

namespace Sys2Proof.Machine

/-- `NOP` (R200): no state change. -/
def execNop (s : State) : Host.Outcome State Fault Refusal := .next s

/-- `RDST` (R204): `DOUT <- zext_128(STATUS)`. -/
def execRdst (s : State) : Host.Outcome State Fault Refusal :=
  .next (s.writeDout (zext128 (statusRead s.status)))

/-- `LDW rd` (R201): `x[rd] <- din`. -/
def execLdw (rd : Reg) (s : State) : Host.Outcome State Fault Refusal :=
  .next (s.writeX rd s.din)

/-- `RDW rs` (R202): `DOUT <- x[rs]`. -/
def execRdw (rs : Reg) (s : State) : Host.Outcome State Fault Refusal :=
  .next (s.writeDout (s.readX rs))

/-- `STM off` (R203): the range check of R56, then `MemWrite(off, 16, din)`. -/
def execStm (off : Offset) (s : State) : Host.Outcome State Fault Refusal :=
  if s.inMsg (byteOffset off) 16 then .next (s.withMsg (s.msg.writeWord (byteOffset off) s.din))
  else .next (s.raise .addressRange)

end Sys2Proof.Machine
end

