-- ==== Sys2Proof/Machine/Dispatch.lean ====
section
/-! DEFINITION. The meaning of each command, one arm per constructor of Instr. -/

namespace Sys2Proof.Machine

def exec (i : Instr) (s : State) : Host.Outcome State Fault Refusal :=
  match i with
  | .nop => Sys2Proof.Machine.execNop s
  | .rdst => Sys2Proof.Machine.execRdst s
  | .ldw rd => Sys2Proof.Machine.execLdw rd s
  | .rdw rs => Sys2Proof.Machine.execRdw rs s
  | .stm off => Sys2Proof.Machine.execStm off s
  | .gfmul a b => Sys2Proof.Machine.execGfmul a b s
  | .sbox a => Sys2Proof.Machine.execSbox a s
  | .isbox a => Sys2Proof.Machine.execIsbox a s
  | .subw rd => Sys2Proof.Machine.execSubw rd s
  | .isubw rd => Sys2Proof.Machine.execIsubw rd s
  | .shrows rd => Sys2Proof.Machine.execShrows rd s
  | .mixcol rd => Sys2Proof.Machine.execMixcol rd s
  | .addkey rd rs => Sys2Proof.Machine.execAddkey rd rs s
  | .aesrnd rd rs => Sys2Proof.Machine.execAesrnd rd rs s
  | .kinit rs => Sys2Proof.Machine.execKinit rs s
  | .knext rd => Sys2Proof.Machine.execKnext rd s
  | .toword rd off => Sys2Proof.Machine.execToword rd off s
  | .toblk idx => Sys2Proof.Machine.execToblk idx s
  | .w2m rd => Sys2Proof.Machine.execW2m rd s
  | .m2w rd => Sys2Proof.Machine.execM2w rd s
  | .build => Sys2Proof.Machine.execBuild s
  | .bigsub => Sys2Proof.Machine.execBigsub s
  | .bigshr => Sys2Proof.Machine.execBigshr s
  | .bigmix => Sys2Proof.Machine.execBigmix s
  | .round => Sys2Proof.Machine.execRound s
  | .final => Sys2Proof.Machine.execFinal s
  | .compress => Sys2Proof.Machine.execCompress s

end Sys2Proof.Machine
end

