-- ==== Sys2Proof/Machine/Step.lean ====
section
/-! DEFINITION. One step: the block takes the host's next input (`spec/10_state.md` R20, R26). -/

namespace Sys2Proof.Machine

/-- The host's next input follows the one just executed; a stop stays a stop. -/
def afterExec : Host.Outcome State Fault Refusal → Host.Outcome State Fault Refusal
  | .next s => .next s.advance
  | .fault r => .fault r
  | .refused r => .refused r

/-- One step. With nothing presented the block holds its state (`60_exceptions.md` R226). A reset is a step of its own
(`70_reset_and_hazards.md` R230). A command word goes through the checks of `60_exceptions.md` R216 and, accepted, is
executed; discarded, illegal or executed, it is consumed (`10_state.md` R26). -/
def step (s : State) : Host.Outcome State Fault Refusal :=
  match s.pending with
  | [] => .next s
  | .rst :: _ => .next s.takeReset.advance
  | .command cmd _ :: _ =>
    match s.accept cmd with
    | .discarded => .next s.advance
    | .illegal => .next (s.raise .illegalCommand).advance
    | .execute i => afterExec (exec i s)

/-- `s` with the host presenting these inputs next. -/
def State.withProgram (s : State) (inputs : List HostInput) : State := { s with pending := inputs }

/-- `s` with the host presenting the opcode-table word `w` of `nbits` bits next, `din` zero (log 14). -/
def State.withFetchWord (s : State) (nbits w : Nat) : State :=
  { s with pending := .command (BitVec.ofNat 32 (w % 2 ^ nbits)) 0 :: s.pending }

end Sys2Proof.Machine
end

