-- ==== Sys2Proof/Machine/HostProtocol.lean ====
section
/-! DEFINITION. The host's side: what software around the block does (`spec/70_reset_and_hazards.md` R236 to R248,
`spec/30_encoding.md` R83, R84). None of it is behaviour of the block and no step calls it (`00_scope.md` R6; log 13). -/

namespace Sys2Proof.Machine

/-- The padded length `T` of a message of `len` bytes (R237). -/
def padTarget (len : Nat) : Nat := 128 * ((len + 18 + 127) / 128)

/-- Byte `T-1-i` of a padded message of `len` bytes: byte `i`, least significant first, of its bit length (R241). -/
def bitLengthByte (len i : Nat) : Byte := BitVec.ofNat 8 ((8 * len) >>> (8 * i))

/-- The padding steps 2 to 6 in the document's order (R237 to R241): the tag is written after the marker and may
overwrite it (R240). -/
def padBytes (m : List Byte) : List Byte :=
  let t := padTarget m.length
  let zeroed := m ++ List.replicate (t - m.length) 0
  let tagged := ((zeroed.set m.length 0x80).set (t - 18) 0x00).set (t - 17) 0x02
  (List.range 16).foldl (fun p i => p.set (t - 1 - i) (bitLengthByte m.length i)) tagged

/-- `pad`: fails when the bit length does not fit its 128-bit field (R241, U15). -/
def pad (m : List Byte) : Option (List Byte) :=
  if 8 * m.length < 2 ^ 128 then some (padBytes m) else none

/-- The Word of 16 bytes of a list, from offset `off` (R156, R243). -/
def wordOfList (p : List Byte) (off : Nat) : Word := wordOfBytes fun i => p.getD (off + i) 0

/-- A command that ignores `din`, as the host presents it (`30_encoding.md` R75: any `din` will do). -/
def plain (i : Instr) : HostInput := .command (encode i) 0

/-- `KSEED rd, off` (R84). -/
def pseudoKseed (rd : Reg) (off : Offset) : List HostInput := [plain (.toword rd off), plain (.kinit rd)]

/-- `HASHBLK idx` (R84). -/
def pseudoHashblk (idx : Offset) : List HostInput := [plain (.toblk idx), plain .compress]

/-- `LDV <- w0, ..., w7` (R84, R244): the eight Words given by index. -/
def pseudoLdv (iv : Vector Word 8) : List HostInput :=
  (List.range 8).map fun i => .command (encode (.ldw (regOf (16 + i)))) (iv.toList.getD i 0)

/-- `RDV` (R84, R246). -/
def pseudoRdv : List HostInput := (List.range 4).map fun i => plain (.rdw (regOf (16 + i)))

/-- `ENC2 rd, rk, rsalt` (R84). -/
def pseudoEnc2 (rd rk rsalt : Reg) : List HostInput := [plain (.aesrnd rd rk), plain (.aesrnd rd rsalt)]

/-- Storing 16 bytes per `STM`, padded byte `from + q` to `MSG[q]`, for `count` Words (R243; `20_memory.md` R60). -/
def storeWords (p : List Byte) (start count : Nat) : List HostInput :=
  (List.range count).map fun q =>
    .command (encode (.stm (BitVec.ofNat 16 (16 * q)))) (wordOfList p (start + 16 * q))

/-- The commands of one hash computation with the padded message `p` whole in `MSG` (R242 to R246). -/
def hashResident (iv : Vector Word 8) (p : List Byte) : List HostInput :=
  storeWords p 0 (p.length / 16) ++ pseudoKseed 0 (BitVec.ofNat 16 (p.length - 16)) ++ pseudoLdv iv ++
    (List.range (p.length / 128)).flatMap (fun i => pseudoHashblk (BitVec.ofNat 16 i)) ++ pseudoRdv

/-- The same with one Block at a time in `MSG` (`20_memory.md` R60): the key comes by `LDW`. -/
def hashStreamed (iv : Vector Word 8) (p : List Byte) : List HostInput :=
  [.command (encode (.ldw 0)) (wordOfList p (p.length - 16)), plain (.kinit 0)] ++ pseudoLdv iv ++
    (List.range (p.length / 128)).flatMap (fun i => storeWords p (128 * i) 8 ++ pseudoHashblk 0) ++ pseudoRdv

/-- The digest: the 16 flat bytes of each of the four Words read, in order (R246). -/
def digestBytes (words : List Word) : List Byte :=
  words.flatMap fun w => (List.range 16).map fun i => byteAt w i

/-- One uppercase hexadecimal digit. -/
def hexDigit (n : Nat) : Char := "0123456789ABCDEF".toList.getD n '0'

/-- The rendering: two uppercase digits per byte, most significant nibble first (R247). -/
def renderDigest (bs : List Byte) : List Char :=
  bs.flatMap fun b => [hexDigit (b.toNat / 16), hexDigit (b.toNat % 16)]

/-- A register as the assembler writes it (R83). -/
def regText (r : Reg) : String := "x" ++ toString r.val

/-- A command as the assembler writes it: mnemonic, then the operands in the table's order, separated by commas, numbers
in decimal (R83). -/
def assembly (i : Instr) : String :=
  let operands : List String :=
    match i with
    | .ldw r | .rdw r | .subw r | .isubw r | .shrows r | .mixcol r | .kinit r | .knext r | .w2m r | .m2w r => [regText r]
    | .addkey rd rs | .aesrnd rd rs => [regText rd, regText rs]
    | .stm n | .toblk n => [toString n.toNat]
    | .gfmul a b => [toString a.toNat, toString b.toNat]
    | .sbox a | .isbox a => [toString a.toNat]
    | .toword rd off => [regText rd, toString off.toNat]
    | .nop | .rdst | .build | .bigsub | .bigshr | .bigmix | .round | .final | .compress => []
  match operands with
  | [] => i.mnemonic
  | ops => i.mnemonic ++ " " ++ ", ".intercalate ops

end Sys2Proof.Machine
end

