-- ==== Sys2Proof/Safety.lean ====
section
/-! DEFINITION. The terms claims are stated in: the invariant of the block's state, what a command leaves unchanged, how
a word is spelled, and the reference form of the field multiplication. -/

namespace Sys2Proof.Machine

/-- What holds of every state the block can be in: `STATUS` holds one of its three values (`10_state.md` R27), `MSG` is in
its canonical form, and no byte is held outside `MSG` (`10_state.md` R30). -/
abbrev State.inv (s : State) : Prop :=
  (s.status = 0x00#8 ∨ s.status = 0x03#8 ∨ s.status = 0x05#8) ∧ Memory.wf s.msg ∧ ∀ c ∈ s.msg, c.1 < s.msgBytes

/-- Every byte of `MSG` reads as before, written or not. -/
def sameMsg (s t : State) : Prop := ∀ a, t.msg.read a = s.msg.read a

/-- The parameters and the model's own fields are as before. -/
def sameOwn (s t : State) : Prop := t.params = s.params ∧ t.pending = s.pending ∧ t.free = s.free

/-- Only the registers in `W` may differ. -/
def onlyX (W : Reg → Prop) (s t : State) : Prop :=
  (∀ r, ¬ W r → t.readX r = s.readX r) ∧ t.k = s.k ∧ t.status = s.status ∧ t.dout = s.dout ∧ sameMsg s t ∧ sameOwn s t

/-- Only the registers in `W` and `K` may differ. -/
def onlyXK (W : Reg → Prop) (s t : State) : Prop :=
  (∀ r, ¬ W r → t.readX r = s.readX r) ∧ t.status = s.status ∧ t.dout = s.dout ∧ sameMsg s t ∧ sameOwn s t

/-- Only `DOUT` may differ. -/
def onlyDout (s t : State) : Prop :=
  (∀ r, t.readX r = s.readX r) ∧ t.k = s.k ∧ t.status = s.status ∧ sameMsg s t ∧ sameOwn s t

/-- Only the `n` bytes of `MSG` from `a` up may differ. -/
def onlyMsg (a n : Nat) (s t : State) : Prop :=
  (∀ r, t.readX r = s.readX r) ∧ t.k = s.k ∧ t.status = s.status ∧ t.dout = s.dout ∧
  (∀ b, b < a ∨ a + n ≤ b → t.msg.read b = s.msg.read b) ∧ sameOwn s t

/-- Fault entry with status `st`: only `STATUS` differs (`60_exceptions.md` R214). -/
def onlyStatus (st : BitVec 8) (s t : State) : Prop :=
  t.status = st ∧ (∀ r, t.readX r = s.readX r) ∧ t.k = s.k ∧ t.dout = s.dout ∧ sameMsg s t ∧ sameOwn s t

/-- The words with opcode `op` and the `n` bits from `lo` up zero spell the command `f c`; the words with that opcode and
one of those bits set are illegal, and presented to a block that is not halted they are fault entry with cause 1
(`30_encoding.md` R76, R79, `60_exceptions.md` R211). -/
def spelledBy (op : BitVec 8) (lo n : Nat) (f : Command → Instr) : Prop :=
  (∀ c : Command, c.extractLsb' 24 8 = op → c.extractLsb' lo n = 0#n → decode c = .ok (f c)) ∧
  (∀ (c : Command) (d : Word) (rest : List HostInput) (s : State),
    c.extractLsb' 24 8 = op → c.extractLsb' lo n ≠ 0#n → s.halted = false → s.pending = .command c d :: rest →
    step s = .next { s with status := 0x03#8, pending := rest })

/-- `exec` of a list of commands one after the other, stopping at the first stop. -/
def execAll : List Instr → State → Host.Outcome State Fault Refusal
  | [], s => .next s
  | i :: is, s =>
    match exec i s with
    | .next t => execAll is t
    | .fault r => .fault r
    | .refused r => .refused r

/-- The product of two Bytes read as polynomials over GF(2), before reduction (`40_galois_field.md` R92). -/
def polyProduct (a b : Byte) : BitVec 16 :=
  (List.range 8).foldl (fun acc i => if b.getLsbD i then acc ^^^ (a.setWidth 16 <<< i) else acc) 0

/-- The remainder modulo `x^8 + x^4 + x^3 + x + 1` (0x11B): the bits 14 down to 8 are cancelled in turn
(`40_galois_field.md` R92). -/
def polyRemainder (v : BitVec 16) : Byte :=
  ([14, 13, 12, 11, 10, 9, 8].foldl
    (fun acc n => if acc.getLsbD n then acc ^^^ (0x11B#16 <<< (n - 8)) else acc) v).setWidth 8

/-- The FIPS-197 affine map of `41_sbox.md` R102. -/
def sboxAffine (v : Byte) : Byte :=
  v ^^^ v.rotateLeft 1 ^^^ v.rotateLeft 2 ^^^ v.rotateLeft 3 ^^^ v.rotateLeft 4 ^^^ 0x63

end Sys2Proof.Machine
end

