-- ==== Sys2Proof/Certificates/Slice0/Obligations.lean ====
section
/-! DEFINITION. The statements for the provers. Each docstring names the rule of spec/ it formalises. -/

open Sys2Proof Sys2Proof.Machine

/-! ## Encoding -/

/-- Every command, with every operand at every value its field admits, is read back from its own word (R76, R77, R81). -/
def Obligations.DecodeOfEncodeIsTheCommand : Prop :=
  ∀ i : Instr, decode (encode i) = .ok i

/-- A legal word is the encoding of the command it spells: each command has one word (R78, R81). -/
def Obligations.EncodeOfDecodeIsTheWord : Prop :=
  ∀ (c : Command) (i : Instr), decode c = .ok i → encode i = c

/-- R78: a word spells a row's command exactly if `(c and mask) = match`, no word matches two rows, and a word that
matches none is illegal. -/
def Obligations.DecodingIsByMatchAndMask : Prop :=
  opcodeTable.length = 27 ∧
  (∀ row ∈ opcodeTable, ∀ c : Command,
    c &&& row.mask = row.pattern ↔ ∃ i, decode c = .ok i ∧ i.mnemonic = row.mnemonic) ∧
  (∀ row ∈ opcodeTable, ∀ row' ∈ opcodeTable, ∀ c : Command,
    c &&& row.mask = row.pattern → c &&& row'.mask = row'.pattern → row = row') ∧
  (∀ c : Command, wellFormedWord c = false ↔ ∃ e, decode c = .error e)

/-- R79: a word is illegal in exactly two ways, an unassigned opcode (229 of 256) or a must-be-zero bit that is 1; an
illegal word presented to a running block is fault entry with cause 1. -/
def Obligations.IllegalWordsAreOfTwoKinds : Prop :=
  (∀ c : Command, decode c = .error .unassignedOpcode ↔ opcodeAssigned c = false) ∧
  (∀ c : Command, decode c = .error .mustBeZeroBitSet ↔ opcodeAssigned c = true ∧ wellFormedWord c = false) ∧
  ((List.range 256).filter fun op => !opcodeAssigned (BitVec.ofNat 8 op ++ 0#24)).length = 229 ∧
  (∀ (s : State) (c : Command) (d : Word) (rest : List HostInput), s.pending = .command c d :: rest →
    s.halted = false → wellFormedWord c = false → step s = .next { s with status := 0x03#8, pending := rest })

/-- R81's worked encodings, read by the decoder. -/
def Obligations.WorkedEncodingsDecode : Prop :=
  decode 0x10578300#32 = .ok (.gfmul 0x57 0x83) ∧ decode 0x20530000#32 = .ok (.sbox 0x53) ∧
  decode 0x02800000#32 = .ok (.ldw 16) ∧ decode 0x33004000#32 = .ok (.aesrnd 0 1) ∧
  decode 0x32FF8000#32 = .ok (.addkey 31 30) ∧ decode 0x50C00070#32 = .ok (.toword 24 112) ∧
  decode 0x51000001#32 = .ok (.toblk 1) ∧ decode 0x040000F0#32 = .ok (.stm 240) ∧
  decode 0x66000000#32 = .ok .compress

/-! ## The step -/

/-- A step runs the decoded command: presented to a block that is not halted, or being `RDST`, the word's command is
executed with its `din` on the port; a next state then has the word consumed and is otherwise the command's, and a stop
is the command's stop (R26, R75, R216). -/
def Obligations.StepRunsTheDecodedCommand : Prop :=
  ∀ (s : State) (c : Command) (d : Word) (rest : List HostInput) (i : Instr),
    s.pending = .command c d :: rest → s.halted = false ∨ c = 0x01000000#32 → decode c = .ok i →
    s.din = d ∧
    step s =
      match exec i s with
      | .next t => .next { t with pending := rest }
      | .fault r => .fault r
      | .refused r => .refused r

/-- The host's list: with nothing presented the block holds its state (log 1); every input is consumed by one step and
nothing else of the list changes (R26). -/
def Obligations.EveryStepConsumesOneInput : Prop :=
  (∀ s : State, s.pending = [] → step s = .next s) ∧
  ∀ (s t : State) (input : HostInput) (rest : List HostInput),
    s.pending = input :: rest → step s = .next t → t.pending = rest

/-- R211: an illegal word is recorded as cause 1 and nothing else, and no command, once decoded, records it. -/
def Obligations.IllegalCommandRecordsCauseOneOnly : Prop :=
  (∀ (s : State) (c : Command) (d : Word) (rest : List HostInput) (e : DecodeReject),
    s.pending = .command c d :: rest → s.halted = false → decode c = .error e →
    step s = .next { s with status := 0x03#8, pending := rest }) ∧
  (∀ (i : Instr) (s t : State), exec i s = .next t → t.status = 0x03#8 → s.status = 0x03#8)

/-- R215: a halted block discards every word but `RDST`, decoding nothing, and executes `RDST`; neither changes
`STATUS`. -/
def Obligations.HaltedBlockDiscardsAllButRdst : Prop :=
  ∀ (s : State) (c : Command) (d : Word) (rest : List HostInput), s.halted = true →
    s.pending = .command c d :: rest →
    (c ≠ 0x01000000#32 → step s = .next { s with pending := rest }) ∧
    (c = 0x01000000#32 → step s = .next { s with dout := zext128 (statusRead s.status), pending := rest })

/-- A halted block stays as it is, but for `DOUT`, through any number of steps in which the host does not reset it
(R215, R217). -/
def Obligations.HaltedUntilReset : Prop :=
  ∀ (n : Nat) (s t : State), s.halted = true → HostInput.rst ∉ s.pending → Sys2Proof.core.run n s = .next t →
    t.halted = true ∧ t.status = s.status ∧ t.k = s.k ∧ (∀ r, t.readX r = s.readX r) ∧ sameMsg s t ∧
    t.params = s.params

/-- R230: the reset step, from any state, halted or not: `STATUS` and `DOUT` zero, the constants of the instance kept.
Of the registers, `K` and `MSG`, which the rule leaves unspecified, nothing is said. -/
def Obligations.ResetStepClearsStatusAndDout : Prop :=
  ∀ (s : State) (rest : List HostInput), s.pending = .rst :: rest →
    ∃ t, step s = .next t ∧ t.status = 0x00#8 ∧ t.dout = 0#128 ∧ t.params = s.params ∧ t.pending = rest

/-- R38, the values the spec gives: on every instance `STATUS` and `DOUT` are zero right after reset and the constants
are the instance's; `State.reset` is that state of one instance. -/
def Obligations.StateAfterReset : Prop :=
  (∀ p, (State.resetWith p).status = 0x00#8 ∧ (State.resetWith p).dout = 0#128 ∧ (State.resetWith p).params = p) ∧
  State.reset = State.resetWith Config.instanceParams

/-! ## Whole-machine rules -/

/-- The invariant holds at reset, whatever the instance and the host's list. -/
def Obligations.InvariantHoldsAfterReset : Prop :=
  State.reset.inv ∧ ∀ (p : Config.Params) (inputs : List HostInput), ((State.resetWith p).withProgram inputs).inv

/-- Every step keeps the invariant: `STATUS` is 0x00, 0x03 or 0x05 (R27), the memory is in canonical form, and no byte
is held outside `MSG` (R30, R56). -/
def Obligations.EveryStepKeepsTheInvariant : Prop :=
  ∀ s t : State, s.inv → step s = .next t → t.inv

/-- A step stops only where the model reads a `MSG` byte that nothing has written: the presented word is an accepted
`TOWORD` or `TOBLK` in range of which some byte is unwritten (R39; log 5). Nothing is refused. -/
def Obligations.StepsStopOnlyOnUnwrittenMsg : Prop :=
  (∀ (s : State) (r : Refusal), step s ≠ .refused r) ∧
  ∀ (s : State) (r : Fault), step s = .fault r → r = .unwrittenMsg ∧
    ∃ c d rest a n, s.pending = .command c d :: rest ∧ s.halted = false ∧
      ((n = 16 ∧ ∃ rd off, decode c = .ok (.toword rd off) ∧ a = off.toNat) ∨
        (n = 128 ∧ ∃ idx, decode c = .ok (.toblk idx) ∧ a = 128 * idx.toNat)) ∧
      a + n ≤ s.msgBytes ∧ ∃ i, i < n ∧ s.msg.read (a + i) = none

/-- `ERR` is set by fault entry, which changes nothing else, and cleared by the reset step, and by nothing else (R28,
R214). -/
def Obligations.ErrChangesOnlyByFaultOrReset : Prop :=
  ∀ s t : State, step s = .next t →
    (s.halted = false → t.halted = true →
      (t.status = 0x03#8 ∨ t.status = 0x05#8) ∧ (∀ r, t.readX r = s.readX r) ∧ t.k = s.k ∧ t.dout = s.dout ∧
      sameMsg s t) ∧
    (s.halted = true → t.halted = false → ∃ rest, s.pending = .rst :: rest)

/-- The parameters of the instance, `SALT` and `MSG_BYTES` among them, are changed by no step (R25, R32, R230). -/
def Obligations.ParametersNeverChange : Prop :=
  ∀ s t : State, step s = .next t → t.params = s.params

/-- R29: of the commands only `GFMUL`, `SBOX`, `ISBOX`, `RDW` and `RDST` change `DOUT`, and a scalar result leaves flat
bytes 1 to 15 zero. -/
def Obligations.DoutIsWrittenByFiveCommands : Prop :=
  (∀ (i : Instr) (s t : State), exec i s = .next t → t.dout ≠ s.dout →
    i.mnemonic = "GFMUL" ∨ i.mnemonic = "SBOX" ∨ i.mnemonic = "ISBOX" ∨ i.mnemonic = "RDW" ∨ i.mnemonic = "RDST") ∧
  (∀ (i : Instr) (s t : State), exec i s = .next t →
    i.mnemonic = "GFMUL" ∨ i.mnemonic = "SBOX" ∨ i.mnemonic = "ISBOX" ∨ i.mnemonic = "RDST" →
    ∀ n, 0 < n → n < 16 → byteAt t.dout n = 0x00#8) ∧
  (∀ (s t : State) (c : Command) (d : Word) (rest : List HostInput), s.pending = .command c d :: rest →
    step s = .next t → t.dout ≠ s.dout →
    ∃ i, decode c = .ok i ∧ (i.mnemonic = "GFMUL" ∨ i.mnemonic = "SBOX" ∨ i.mnemonic = "ISBOX" ∨
      i.mnemonic = "RDW" ∨ i.mnemonic = "RDST"))

/-- `K` is written whole by `KINIT` only; `KNEXT`, `BIGSUB`, `ROUND` and `COMPRESS` change its byte 0 at most, and no
other command changes it (R24). -/
def Obligations.KeyIsWrittenByFiveCommands : Prop :=
  ∀ (s t : State) (c : Command) (d : Word) (rest : List HostInput), s.pending = .command c d :: rest →
    step s = .next t → t.k ≠ s.k →
    ∃ i, decode c = .ok i ∧
      (i.mnemonic = "KINIT" ∨
        ((i.mnemonic = "KNEXT" ∨ i.mnemonic = "BIGSUB" ∨ i.mnemonic = "ROUND" ∨ i.mnemonic = "COMPRESS") ∧
          ∀ n, 0 < n → n < 16 → byteAt t.k n = byteAt s.k n))

/-- A byte of `MSG` changes only by the reset step or by an accepted `STM` whose 16 bytes hold it (R30, R57). -/
def Obligations.MsgIsWrittenByStmOnly : Prop :=
  ∀ (s t : State) (a : Nat), step s = .next t → t.msg.read a ≠ s.msg.read a →
    (∃ rest, s.pending = .rst :: rest) ∨
    ∃ c d rest off, s.pending = .command c d :: rest ∧ s.halted = false ∧ decode c = .ok (.stm off) ∧
      off.toNat + 16 ≤ s.msgBytes ∧ off.toNat ≤ a ∧ a < off.toNat + 16

/-- No bit of `din` influences any state unless the word is `LDW` or `STM` (R75). -/
def Obligations.DinIsReadByLdwAndStmOnly : Prop :=
  ∀ (s : State) (c : Command) (d d' : Word) (rest : List HostInput),
    (∀ i, decode c = .ok i → i.mnemonic ≠ "LDW" ∧ i.mnemonic ≠ "STM") →
    step (s.withProgram (.command c d :: rest)) = step (s.withProgram (.command c d' :: rest))

/-! ## Data movement and status -/

/-- R200: the only word that spells `NOP` is all-zero, every other word with opcode 0x00 is illegal, and `NOP` changes
nothing. -/
def Obligations.NopChangesNothing : Prop :=
  spelledBy 0x00#8 0 24 (fun _ => .nop) ∧ (∀ c : Command, decode c = .ok .nop → c = 0x00000000#32) ∧
  ∀ s : State, exec .nop s = .next s

/-- R204: `DOUT` is `STATUS`, of which bits 7:3 read as zero (R27). -/
def Obligations.RdstReadsStatus : Prop :=
  spelledBy 0x01#8 0 24 (fun _ => .rdst) ∧
  ∀ s : State, ∃ t, exec .rdst s = .next t ∧ onlyDout s t ∧
    byteAt t.dout 0 = 0#5 ++ s.status.extractLsb' 0 3 ∧ (s.inv → byteAt t.dout 0 = s.status) ∧
    ∀ i, 0 < i → i < 16 → byteAt t.dout i = 0x00#8

/-- R201: flat byte `i` of `x[rd]` is `din[8i+7:8i]`. -/
def Obligations.LdwLoadsDin : Prop :=
  spelledBy 0x02#8 0 19 (fun c => .ldw (c.extractLsb' 19 5).toFin) ∧
  ∀ (rd : Reg) (s : State) (c : Command) (d : Word) (rest : List HostInput), s.pending = .command c d :: rest →
    ∃ t, exec (.ldw rd) s = .next t ∧ (∀ i, i < 16 → byteAt (t.readX rd) i = d.extractLsb' (8 * i) 8) ∧
      t.readX rd = d ∧ onlyX (· = rd) s t

/-- R202: `DOUT[8i+7:8i]` is flat byte `i` of `x[rs]`. -/
def Obligations.RdwWritesDout : Prop :=
  spelledBy 0x03#8 0 19 (fun c => .rdw (c.extractLsb' 19 5).toFin) ∧
  ∀ (rs : Reg) (s : State), ∃ t, exec (.rdw rs) s = .next t ∧
    (∀ i, i < 16 → t.dout.extractLsb' (8 * i) 8 = byteAt (s.readX rs) i) ∧ onlyDout s t

/-- R203: in range, `STM` stores the 16 bytes of `din` in ascending order and nothing else; out of range it stores no
byte and is fault entry with cause 2 (R56). -/
def Obligations.StmStoresSixteenBytes : Prop :=
  spelledBy 0x04#8 16 8 (fun c => .stm (c.extractLsb' 0 16)) ∧
  (∀ (off : Offset) (s : State) (c : Command) (d : Word) (rest : List HostInput), s.pending = .command c d :: rest →
    off.toNat + 16 ≤ s.msgBytes →
    ∃ t, exec (.stm off) s = .next t ∧
      (∀ i, i < 16 → t.msg.read (byteOffset off + i) = some (d.extractLsb' (8 * i) 8)) ∧
      onlyMsg (byteOffset off) 16 s t) ∧
  (∀ (off : Offset) (s : State), s.msgBytes < off.toNat + 16 →
    ∃ t, exec (.stm off) s = .next t ∧ onlyStatus 0x05#8 s t)

/-! ## GaloisField -/

/-- R93: flat byte 0 of `DOUT` is the product, the others are zero. -/
def Obligations.GfmulWritesTheProduct : Prop :=
  spelledBy 0x10#8 0 8 (fun c => .gfmul (c.extractLsb' 16 8) (c.extractLsb' 8 8)) ∧
  ∀ (a b : Byte) (s : State), ∃ t, exec (.gfmul a b) s = .next t ∧ byteAt t.dout 0 = gmul a b ∧
    (∀ i, 0 < i → i < 16 → byteAt t.dout i = 0x00#8) ∧ onlyDout s t

/-- `gmul` (R90) is the product of the polynomials reduced modulo 0x11B, with the consequences R92 names: the spec's own
inference from R90. -/
def Obligations.GmulIsThePolynomialProduct : Prop :=
  (∀ a b : Byte, gmul a b = polyRemainder (polyProduct a b)) ∧
  (∀ a : Byte, gmul 2 a = (a <<< 1) ^^^ (if a.getLsbD 7 then 0x1B#8 else 0x00#8)) ∧
  (∀ a : Byte, gmul 3 a = gmul 2 a ^^^ a) ∧
  (∀ a b c : Byte, gmul a (b ^^^ c) = gmul a b ^^^ gmul a c) ∧
  (∀ a b c : Byte, gmul (a ^^^ b) c = gmul a c ^^^ gmul b c)

/-- R94: the document's laws of `multiply`. -/
def Obligations.GmulLaws : Prop :=
  (∀ a : Byte, gmul a 0 = 0) ∧ (∀ a : Byte, gmul a 1 = a) ∧ ∀ a b : Byte, gmul a b = gmul b a

/-! ## S-box -/

/-- R106, R107: one entry of a table to flat byte 0 of `DOUT`. -/
def Obligations.SboxAndIsboxWriteTheEntry : Prop :=
  spelledBy 0x20#8 0 16 (fun c => .sbox (c.extractLsb' 16 8)) ∧
  spelledBy 0x21#8 0 16 (fun c => .isbox (c.extractLsb' 16 8)) ∧
  (∀ (a : Byte) (s : State), ∃ t, exec (.sbox a) s = .next t ∧ byteAt t.dout 0 = sbox a ∧
    (∀ i, 0 < i → i < 16 → byteAt t.dout i = 0x00#8) ∧ onlyDout s t) ∧
  (∀ (a : Byte) (s : State), ∃ t, exec (.isbox a) s = .next t ∧ byteAt t.dout 0 = invSbox a ∧
    (∀ i, 0 < i → i < 16 → byteAt t.dout i = 0x00#8) ∧ onlyDout s t)

/-- R108 with R100: every byte of `x[rd]` replaced by its `SBOX` entry. -/
def Obligations.SubwSubstitutesEveryByte : Prop :=
  spelledBy 0x22#8 0 19 (fun c => .subw (c.extractLsb' 19 5).toFin) ∧
  ∀ (rd : Reg) (s : State), ∃ t, exec (.subw rd) s = .next t ∧
    (∀ i, i < 16 → byteAt (t.readX rd) i = sbox (byteAt (s.readX rd) i)) ∧ onlyX (· = rd) s t

/-- R109: every byte of `x[rd]` replaced by its `INVSBOX` entry. -/
def Obligations.IsubwSubstitutesEveryByte : Prop :=
  spelledBy 0x23#8 0 19 (fun c => .isubw (c.extractLsb' 19 5).toFin) ∧
  ∀ (rd : Reg) (s : State), ∃ t, exec (.isubw rd) s = .next t ∧
    (∀ i, i < 16 → byteAt (t.readX rd) i = invSbox (byteAt (s.readX rd) i)) ∧ onlyX (· = rd) s t

/-- R102: the table agrees with its algebraic definition: every non-zero Byte has exactly one inverse, and its entry is
the affine map of it. -/
def Obligations.SboxIsTheAffineImageOfTheInverse : Prop :=
  sbox 0 = sboxAffine 0 ∧
  ∀ a : Byte, a ≠ 0 → ∃ v, gmul a v = 1 ∧ (∀ w, gmul a w = 1 → w = v) ∧ sbox a = sboxAffine v

/-! ## AES round -/

/-- R120 with R116: row `r` of the matrix view rotated left by `r`. -/
def Obligations.ShrowsRotatesTheRows : Prop :=
  spelledBy 0x30#8 0 19 (fun c => .shrows (c.extractLsb' 19 5).toFin) ∧
  ∀ (rd : Reg) (s : State), ∃ t, exec (.shrows rd) s = .next t ∧
    (∀ r c, r < 4 → c < 4 → byteAt (t.readX rd) (4 * c + r) = byteAt (s.readX rd) (4 * ((c + r) % 4) + r)) ∧
    onlyX (· = rd) s t

/-- R121 with R117: every column replaced by its MDS combination, computed from the old column. -/
def Obligations.MixcolMixesEveryColumn : Prop :=
  spelledBy 0x31#8 0 19 (fun c => .mixcol (c.extractLsb' 19 5).toFin) ∧
  ∀ (rd : Reg) (s : State), ∃ t, exec (.mixcol rd) s = .next t ∧ onlyX (· = rd) s t ∧
    ∀ c, c < 4 → ∀ a b p q : Byte, byteAt (s.readX rd) (4 * c) = a → byteAt (s.readX rd) (4 * c + 1) = b →
      byteAt (s.readX rd) (4 * c + 2) = p → byteAt (s.readX rd) (4 * c + 3) = q →
      byteAt (t.readX rd) (4 * c) = gmul 2 a ^^^ gmul 3 b ^^^ p ^^^ q ∧
      byteAt (t.readX rd) (4 * c + 1) = a ^^^ gmul 2 b ^^^ gmul 3 p ^^^ q ∧
      byteAt (t.readX rd) (4 * c + 2) = a ^^^ b ^^^ gmul 2 p ^^^ gmul 3 q ∧
      byteAt (t.readX rd) (4 * c + 3) = gmul 3 a ^^^ b ^^^ p ^^^ gmul 2 q

/-- R122 with R118 and R257: the exclusive-or of the two old registers; the same register twice gives zero. -/
def Obligations.AddkeyXorsTheKey : Prop :=
  spelledBy 0x32#8 0 14 (fun c => .addkey (c.extractLsb' 19 5).toFin (c.extractLsb' 14 5).toFin) ∧
  ∀ (rd rs : Reg) (s : State), ∃ t, exec (.addkey rd rs) s = .next t ∧ onlyX (· = rd) s t ∧
    (∀ i, i < 16 → byteAt (t.readX rd) i = byteAt (s.readX rd) i ^^^ byteAt (s.readX rs) i) ∧
    (rs = rd → t.readX rd = 0#128)

/-- R123 with R119: SubBytes, ShiftRows, MixColumns, AddRoundKey of the old registers; with `rs` other than `rd` the
effect of the four commands in a row. -/
def Obligations.AesrndIsOneFullRound : Prop :=
  spelledBy 0x33#8 0 14 (fun c => .aesrnd (c.extractLsb' 19 5).toFin (c.extractLsb' 14 5).toFin) ∧
  (∀ (rd rs : Reg) (s : State), ∃ t, exec (.aesrnd rd rs) s = .next t ∧ onlyX (· = rd) s t ∧
    t.readX rd = addRoundKey (mixColumns (shiftRows (substitute (s.readX rd)))) (s.readX rs)) ∧
  (∀ (rd rs : Reg) (s : State), rs ≠ rd →
    exec (.aesrnd rd rs) s = execAll [.subw rd, .shrows rd, .mixcol rd, .addkey rd rs] s)

/-- Four `SHROWS`, four `MIXCOL` or four `BIGSHR` restore the state (R124, R128, R183). -/
def Obligations.FourRotationsRestore : Prop :=
  (∀ (rd : Reg) (s : State), execAll (List.replicate 4 (.shrows rd)) s = .next s) ∧
  (∀ (rd : Reg) (s : State), execAll (List.replicate 4 (.mixcol rd)) s = .next s) ∧
  (∀ s : State, execAll (List.replicate 4 .bigshr) s = .next s)

/-- `ISUBW` undoes `SUBW` and the other way round, `M2W` and `W2M` likewise, and `ADDKEY` with the same key undoes
itself (R104, R158, R122). -/
def Obligations.InversePairsRestore : Prop :=
  (∀ (rd : Reg) (s : State), execAll [.subw rd, .isubw rd] s = .next s ∧ execAll [.isubw rd, .subw rd] s = .next s) ∧
  (∀ (rd : Reg) (s : State), execAll [.w2m rd, .m2w rd] s = .next s ∧ execAll [.m2w rd, .w2m rd] s = .next s ∧
    execAll [.w2m rd, .w2m rd] s = .next s) ∧
  (∀ (rd rs : Reg) (s : State), rs ≠ rd → execAll [.addkey rd rs, .addkey rd rs] s = .next s)

/-! ## KeySchedule -/

/-- R143: all 16 bytes of `K` from `x[rs]`, nothing else. -/
def Obligations.KinitLoadsTheKey : Prop :=
  spelledBy 0x40#8 0 19 (fun c => .kinit (c.extractLsb' 19 5).toFin) ∧
  ∀ (rs : Reg) (s : State), ∃ t, exec (.kinit rs) s = .next t ∧ t.k = s.readX rs ∧ onlyXK (fun _ => False) s t

/-- R144 with R142: `x[rd]` receives the key before the advance; byte 0 of `K` is incremented modulo 256 without a
carry. -/
def Obligations.KnextReturnsThenAdvances : Prop :=
  spelledBy 0x41#8 0 19 (fun c => .knext (c.extractLsb' 19 5).toFin) ∧
  ∀ (rd : Reg) (s : State), ∃ t, exec (.knext rd) s = .next t ∧ t.readX rd = s.k ∧
    byteAt t.k 0 = byteAt s.k 0 + 1 ∧ (∀ i, 0 < i → i < 16 → byteAt t.k i = byteAt s.k i) ∧ onlyXK (· = rd) s t

/-- R145: the `n`-th key of the sequence has first byte `K0[0] + n` modulo 256 and the other bytes of `K0`; the sequence
has period 256. -/
def Obligations.KeySequence : Prop :=
  ∀ (s : State) (n : Nat),
    byteAt ((fun u : State => u.nextPrimaryKey.2)^[n] s).nextPrimaryKey.1 0 = byteAt s.k 0 + BitVec.ofNat 8 n ∧
    (∀ i, 0 < i → i < 16 →
      byteAt ((fun u : State => u.nextPrimaryKey.2)^[n] s).nextPrimaryKey.1 i = byteAt s.k i) ∧
    ((fun u : State => u.nextPrimaryKey.2)^[n + 256] s).nextPrimaryKey.1 =
      ((fun u : State => u.nextPrimaryKey.2)^[n] s).nextPrimaryKey.1

/-! ## BlockCodec -/

/-- R159: in range and written, `TOWORD` copies 16 bytes in ascending order; out of range it writes no register and is
fault entry with cause 2. -/
def Obligations.TowordCopiesSixteenBytes : Prop :=
  spelledBy 0x50#8 16 3 (fun c => .toword (c.extractLsb' 19 5).toFin (c.extractLsb' 0 16)) ∧
  (∀ (rd : Reg) (off : Offset) (s : State), off.toNat + 16 ≤ s.msgBytes →
    (∀ i, i < 16 → s.msg.read (off.toNat + i) ≠ none) →
    ∃ t, exec (.toword rd off) s = .next t ∧ onlyX (· = rd) s t ∧
      ∀ i, i < 16 → some (byteAt (t.readX rd) i) = s.msg.read (off.toNat + i)) ∧
  (∀ (rd : Reg) (off : Offset) (s : State), s.msgBytes < off.toNat + 16 →
    ∃ t, exec (.toword rd off) s = .next t ∧ onlyStatus 0x05#8 s t)

/-- R160: in range and written, `TOBLK` copies Block `idx` into x24..x31; out of range, the product not truncated, it
writes no register and is fault entry with cause 2. -/
def Obligations.ToblkCopiesOneBlock : Prop :=
  spelledBy 0x51#8 16 8 (fun c => .toblk (c.extractLsb' 0 16)) ∧
  (∀ (idx : Offset) (s : State), 128 * idx.toNat + 128 ≤ s.msgBytes →
    (∀ i, i < 128 → s.msg.read (128 * idx.toNat + i) ≠ none) →
    ∃ t, exec (.toblk idx) s = .next t ∧ onlyX (fun r => 24 ≤ r.val) s t ∧
      ∀ j k, j < 8 → k < 16 →
        some (byteAt (t.readN (24 + j)) k) = s.msg.read (128 * idx.toNat + 16 * j + k)) ∧
  (∀ (idx : Offset) (s : State), s.msgBytes < 128 * idx.toNat + 128 →
    ∃ t, exec (.toblk idx) s = .next t ∧ onlyStatus 0x05#8 s t)

/-- The model's choice of log 5 for R39: a `TOWORD` or `TOBLK` in range that reads a byte nothing has written stops,
and right after reset, or after the reset step, no byte is written. -/
def Obligations.UnwrittenMsgStopsTheRead : Prop :=
  (∀ (rd : Reg) (off : Offset) (s : State) (i : Nat), off.toNat + 16 ≤ s.msgBytes → i < 16 →
    s.msg.read (off.toNat + i) = none → exec (.toword rd off) s = .fault .unwrittenMsg) ∧
  (∀ (idx : Offset) (s : State) (i : Nat), 128 * idx.toNat + 128 ≤ s.msgBytes → i < 128 →
    s.msg.read (128 * idx.toNat + i) = none → exec (.toblk idx) s = .fault .unwrittenMsg) ∧
  (∀ (p : Config.Params) (a : Nat), (State.resetWith p).msg.read a = none) ∧
  ∀ (s t : State) (rest : List HostInput) (a : Nat), s.pending = .rst :: rest → step s = .next t →
    t.msg.read a = none

/-- R212 with R56: exactly `STM`, `TOWORD` and `TOBLK` outside `MSG` raise `AddressRange`, which records cause 2 and
changes nothing else. -/
def Obligations.AddressRangeIsRaisedOutsideMsg : Prop :=
  (∀ (off : Offset) (s : State), s.msgBytes < off.toNat + 16 →
    exec (.stm off) s = .next { s with status := 0x05#8 }) ∧
  (∀ (rd : Reg) (off : Offset) (s : State), s.msgBytes < off.toNat + 16 →
    exec (.toword rd off) s = .next { s with status := 0x05#8 }) ∧
  (∀ (idx : Offset) (s : State), s.msgBytes < 128 * idx.toNat + 128 →
    exec (.toblk idx) s = .next { s with status := 0x05#8 }) ∧
  (∀ (i : Instr) (s t : State), exec i s = .next t → t.status ≠ s.status →
    (∃ off : Offset, i = .stm off ∧ s.msgBytes < off.toNat + 16) ∨
    (∃ (rd : Reg) (off : Offset), i = .toword rd off ∧ s.msgBytes < off.toNat + 16) ∨
    (∃ idx : Offset, i = .toblk idx ∧ s.msgBytes < 128 * idx.toNat + 128))

/-- R161, R162: the register's bytes transposed as a 4×4 matrix. -/
def Obligations.MatrixCommandsTranspose : Prop :=
  spelledBy 0x52#8 0 19 (fun c => .w2m (c.extractLsb' 19 5).toFin) ∧
  spelledBy 0x53#8 0 19 (fun c => .m2w (c.extractLsb' 19 5).toFin) ∧
  (∀ (rd : Reg) (s : State), ∃ t, exec (.w2m rd) s = .next t ∧ onlyX (· = rd) s t ∧
    ∀ k, k < 16 → byteAt (t.readX rd) k = byteAt (s.readX rd) (4 * (k % 4) + k / 4)) ∧
  (∀ (rd : Reg) (s : State), ∃ t, exec (.m2w rd) s = .next t ∧ onlyX (· = rd) s t ∧
    ∀ r c, r < 4 → c < 4 → byteAt (t.readX rd) (4 * c + r) = byteAt (s.readX rd) (4 * r + c))

/-- `TOBLK` in range is the eight `TOWORD`s of its Words (R53, R160); that the two also agree where a byte is unwritten,
by stopping alike, is the model's choice for R39 (log 5). -/
def Obligations.ToblkIsEightTowords : Prop :=
  ∀ (idx : Offset) (s : State), 128 * idx.toNat + 128 ≤ s.msgBytes →
    exec (.toblk idx) s =
      execAll ((List.range 8).map fun j => .toword (regOf (24 + j)) (BitVec.ofNat 16 (128 * idx.toNat + 16 * j))) s

/-- What `STM` stores, `TOWORD` at the same offset reads (R52, R62), aligned or not (R55). -/
def Obligations.TowordReadsWhatStmStored : Prop :=
  ∀ (rd : Reg) (off : Offset) (s : State) (c : Command) (d : Word) (rest : List HostInput),
    s.pending = .command c d :: rest → off.toNat + 16 ≤ s.msgBytes →
    ∃ t, execAll [.stm off, .toword rd off] s = .next t ∧ t.readX rd = d ∧
      (∀ r, r ≠ rd → t.readX r = s.readX r) ∧ t.k = s.k ∧ t.dout = s.dout ∧ t.status = s.status ∧ sameOwn s t ∧
      ∀ b, b < byteOffset off ∨ byteOffset off + 16 ≤ b → t.msg.read b = s.msg.read b

/-! ## Compressor -/

/-- R178: the grid from V and B. With `GRID_W67 = source_defect` cells 14 and 15 hold block word 5: that these are the two
cells is the spec's own reading in R179 (log 10). -/
def Obligations.BuildFillsTheGrid : Prop :=
  spelledBy 0x60#8 0 24 (fun _ => .build) ∧
  ∀ s : State, ∃ t, exec .build s = .next t ∧ onlyX (fun r => r.val < 16) s t ∧
    (∀ n, n < 8 → t.readN n = s.readN (16 + n)) ∧
    (∀ n, n < 6 → t.readN (8 + n) = s.readN (24 + n)) ∧
    (s.params.gridW67 = .per46 → t.readN 14 = s.readN 30 ∧ t.readN 15 = s.readN 31) ∧
    (s.params.gridW67 = .sourceDefect → t.readN 14 = s.readN 29 ∧ t.readN 15 = s.readN 29)

/-- R181 with R180, R127 and R145: cell `n` goes through two rounds, the first keyed with the key of its place in the
order (column by column, or row by row under the switch), the second with `SALT`; `K[0]` grows by 16. -/
def Obligations.BigsubKeysEveryCell : Prop :=
  spelledBy 0x61#8 0 24 (fun _ => .bigsub) ∧
  ∀ s : State, ∃ t, exec .bigsub s = .next t ∧ onlyXK (fun r => r.val < 16) s t ∧
    byteAt t.k 0 = byteAt s.k 0 + 16 ∧ (∀ i, 0 < i → i < 16 → byteAt t.k i = byteAt s.k i) ∧
    ∀ n, n < 16 → ∃ key : Word,
      byteAt key 0 = byteAt s.k 0 +
        BitVec.ofNat 8 (match s.params.subwordOrder with | .columnMajor => n | .rowMajor => 4 * (n % 4) + n / 4) ∧
      (∀ i, 0 < i → i < 16 → byteAt key i = byteAt s.k i) ∧
      (s.params.perwordMix = true → t.readN n = aesRound (aesRound (s.readN n) key) s.params.salt) ∧
      (s.params.perwordMix = false →
        t.readN n = addRoundKey (shiftRows (substitute (addRoundKey (shiftRows (substitute (s.readN n))) key)))
          s.params.salt)

/-- R183: whole Words rotate within their grid rows. -/
def Obligations.BigshrRotatesTheGridRows : Prop :=
  spelledBy 0x62#8 0 24 (fun _ => .bigshr) ∧
  ∀ s : State, ∃ t, exec .bigshr s = .next t ∧ onlyX (fun r => r.val < 16) s t ∧
    ∀ r c, r < 4 → c < 4 → t.readN (4 * c + r) = s.readN (4 * ((c + r) % 4) + r)

/-- R185: at every byte index, the four bytes of a grid column through the MDS combination; R186: of a grid row, under
`BIGMIX_AXIS = row`. -/
def Obligations.BigmixMixesTheGrid : Prop :=
  spelledBy 0x63#8 0 24 (fun _ => .bigmix) ∧
  ∀ s : State, ∃ t, exec .bigmix s = .next t ∧ onlyX (fun r => r.val < 16) s t ∧
    ∀ n b, n < 4 → b < 16 → ∀ q : Nat → Nat,
      ((s.params.bigmixAxis = .column ∧ q = fun m => 4 * n + m) ∨ (s.params.bigmixAxis = .row ∧ q = fun m => 4 * m + n)) →
      byteAt (t.readN (q 0)) b = gmul 2 (byteAt (s.readN (q 0)) b) ^^^ gmul 3 (byteAt (s.readN (q 1)) b) ^^^
        byteAt (s.readN (q 2)) b ^^^ byteAt (s.readN (q 3)) b ∧
      byteAt (t.readN (q 1)) b = byteAt (s.readN (q 0)) b ^^^ gmul 2 (byteAt (s.readN (q 1)) b) ^^^
        gmul 3 (byteAt (s.readN (q 2)) b) ^^^ byteAt (s.readN (q 3)) b ∧
      byteAt (t.readN (q 2)) b = byteAt (s.readN (q 0)) b ^^^ byteAt (s.readN (q 1)) b ^^^
        gmul 2 (byteAt (s.readN (q 2)) b) ^^^ gmul 3 (byteAt (s.readN (q 3)) b) ∧
      byteAt (t.readN (q 3)) b = gmul 3 (byteAt (s.readN (q 0)) b) ^^^ byteAt (s.readN (q 1)) b ^^^
        byteAt (s.readN (q 2)) b ^^^ gmul 2 (byteAt (s.readN (q 3)) b)

/-- R188: `ROUND` is `BIGSUB`, `BIGSHR`, `BIGMIX` in a row; it writes the grid and byte 0 of `K`, which grows by 16. -/
def Obligations.RoundIsThreeCommands : Prop :=
  spelledBy 0x64#8 0 24 (fun _ => .round) ∧
  ∀ s : State, exec .round s = execAll [.bigsub, .bigshr, .bigmix] s ∧
    ∃ t, exec .round s = .next t ∧ onlyXK (fun r => r.val < 16) s t ∧
      byteAt t.k 0 = byteAt s.k 0 + 16 ∧ ∀ i, 0 < i → i < 16 → byteAt t.k i = byteAt s.k i

/-- R190: `V[i] <- V[i] xor B[i] xor S[i mod 4][j] xor S[i mod 4][l]`. -/
def Obligations.FinalFoldsIntoTheChainingValue : Prop :=
  spelledBy 0x65#8 0 24 (fun _ => .final) ∧
  ∀ s : State, ∃ t, exec .final s = .next t ∧ onlyX (fun r => 16 ≤ r.val ∧ r.val < 24) s t ∧
    ∀ i j l, i < 8 → (j, l) = (if i < 4 then (0, 2) else (1, 3)) → ∀ k, k < 16 →
      byteAt (t.readN (16 + i)) k = byteAt (s.readN (16 + i)) k ^^^ byteAt (s.readN (24 + i)) k ^^^
        byteAt (s.readN (4 * j + i % 4)) k ^^^ byteAt (s.readN (4 * l + i % 4)) k

/-- R192: `COMPRESS` is `BUILD`, ten `ROUND`s, `FINAL`, and the 32 commands of its steps; it leaves the last grid in
x0..x15 (R37) and V folded with it in x16..x23, and `K[0]` grown by 160 (R146). -/
def Obligations.CompressIsTheSplitSequence : Prop :=
  spelledBy 0x66#8 0 24 (fun _ => .compress) ∧
  ∀ s : State,
    exec .compress s = execAll ([.build] ++ List.replicate 10 .round ++ [.final]) s ∧
    exec .compress s =
      execAll ([.build] ++ (List.replicate 10 [.bigsub, .bigshr, .bigmix]).flatten ++ [.final]) s ∧
    ∃ t, exec .compress s = .next t ∧ onlyXK (fun r => r.val < 24) s t ∧
      byteAt t.k 0 = byteAt s.k 0 + 160 ∧ (∀ i, 0 < i → i < 16 → byteAt t.k i = byteAt s.k i) ∧
      ∀ i, i < 8 →
        t.readN (16 + i) = s.readN (16 + i) ^^^ s.readN (24 + i) ^^^ t.readN i ^^^ t.readN (i + 8)

/-- `compress1024` is a function of V, the Block, `K` and the instance's constants: what x0..x15 held before has no
influence on any register or on `K` (R175, R192). -/
def Obligations.CompressIgnoresTheOldGrid : Prop :=
  ∀ s s' : State, (∀ r : Reg, 16 ≤ r.val → s.readX r = s'.readX r) → s.k = s'.k → s.params = s'.params →
    ∃ t t', exec .compress s = .next t ∧ exec .compress s' = .next t' ∧ (∀ r, t.readX r = t'.readX r) ∧ t.k = t'.k

/-- A second `FINAL` restores the state before the first; a second `BUILD` changes nothing (R256). -/
def Obligations.FinalCancelsAndBuildRepeats : Prop :=
  ∀ s : State, execAll [.final, .final] s = .next s ∧ execAll [.build, .build] s = exec .build s

/-! ## The host's padding -/

/-- R237 to R241, for every message whose bit length fits its field: the padded length, the message in front, the marker
unless the tag overwrites it (R240), the tag, the big-endian bit length, and zeros between. -/
def Obligations.PaddingHasItsFields : Prop :=
  ∀ m : List Byte, 8 * m.length < 2 ^ 128 → ∃ p, pad m = some p ∧
    p.length % 128 = 0 ∧ m.length + 18 ≤ p.length ∧ p.length < m.length + 18 + 128 ∧
    (∀ i, i < m.length → p[i]? = m[i]?) ∧
    (m.length + 18 < p.length → p[m.length]? = some 0x80#8) ∧
    (∀ i, m.length < i → i + 18 < p.length → p[i]? = some 0x00#8) ∧
    p[p.length - 18]? = some 0x00#8 ∧ p[p.length - 17]? = some 0x02#8 ∧
    ∀ i, i < 16 → p[p.length - 1 - i]? = some (BitVec.ofNat 8 ((8 * m.length) >>> (8 * i)))
end

