-- ==== Sys2Proof/Laws/Bytes.lean ====
section
/-! SUPPORT. The byte view of a Word: reading a byte of a built Word, and equality byte by byte. -/

namespace Sys2Proof.Machine

theorem byteAt_getLsbD (w : Word) (i j : Nat) (hj : j < 8) :
    (byteAt w i).getLsbD j = w.getLsbD (8 * i + j) := by
  simp [byteAt, hj]

/-- Bit `8i + j` of a fold over the byte indices `l`, `l+1`, … counted from `l`. -/
theorem wordOfBytes_foldr_getLsbD (f : Nat → Byte) (n l i j : Nat) (hj : j < 8) (hi : i < n) (hn : n ≤ 16) :
    ((List.range' l n).foldr (fun i (acc : Word) => acc <<< 8 ||| (f i).setWidth 128) (0 : Word)).getLsbD (8 * i + j)
      = (f (l + i)).getLsbD j := by
  induction n generalizing l i with
  | zero => omega
  | succ n ih =>
    rw [List.range'_succ, List.foldr_cons, BitVec.getLsbD_or, BitVec.getLsbD_shiftLeft]
    cases i with
    | zero =>
      have h8 : j < 128 := by omega
      simp [hj, h8]
    | succ i =>
      have e : 8 * (i + 1) + j - 8 = 8 * i + j := by omega
      have h1 : 8 * (i + 1) + j < 128 := by omega
      have h2 : ¬ 8 * (i + 1) + j < 8 := by omega
      have h3 : (f l).getLsbD (8 * (i + 1) + j) = false := BitVec.getLsbD_of_ge _ _ (by omega)
      have e2 : l + 1 + i = l + (i + 1) := by omega
      rw [e, ih (l + 1) i (by omega) (by omega), e2]
      simp [h1, h2, h3]

/-- Flat byte `i` of the Word built from `f` is `f i`. -/
@[simp] theorem byteAt_wordOfBytes (f : Nat → Byte) (i : Nat) (hi : i < 16) : byteAt (wordOfBytes f) i = f i := by
  apply BitVec.eq_of_getLsbD_eq
  intro j hj
  rw [byteAt_getLsbD _ _ _ hj, wordOfBytes, List.range_eq_range',
    wordOfBytes_foldr_getLsbD f 16 0 i j hj hi (by omega), Nat.zero_add]

/-- Two Words with the same 16 flat bytes are equal (R11). -/
theorem word_ext {v w : Word} (h : ∀ i, i < 16 → byteAt v i = byteAt w i) : v = w := by
  apply BitVec.eq_of_getLsbD_eq
  intro n hn
  have hi : n / 8 < 16 := by omega
  have hj : n % 8 < 8 := by omega
  have e : 8 * (n / 8) + n % 8 = n := by omega
  have := congrArg (fun b : Byte => b.getLsbD (n % 8)) (h (n / 8) hi)
  simpa [byteAt_getLsbD _ _ _ hj, e] using this

/-- Every Word is built from its own bytes. -/
@[simp] theorem wordOfBytes_byteAt (w : Word) : (wordOfBytes fun i => byteAt w i) = w :=
  word_ext fun i hi => byteAt_wordOfBytes _ i hi

theorem wordOfBytes_congr {f g : Nat → Byte} (h : ∀ i, i < 16 → f i = g i) : wordOfBytes f = wordOfBytes g :=
  word_ext fun i hi => by rw [byteAt_wordOfBytes _ _ hi, byteAt_wordOfBytes _ _ hi, h i hi]

@[simp] theorem byteAt_xor (v w : Word) (i : Nat) : byteAt (v ^^^ w) i = byteAt v i ^^^ byteAt w i := by
  apply BitVec.eq_of_getLsbD_eq
  intro j hj
  simp [byteAt, hj]

@[simp] theorem byteAt_zero (i : Nat) : byteAt 0 i = 0 := by
  apply BitVec.eq_of_getLsbD_eq
  intro j hj
  simp [byteAt]

/-- `zext_128(b)`: flat byte 0 is `b` (R14). -/
@[simp] theorem byteAt_zext128_zero (b : Byte) : byteAt (zext128 b) 0 = b := by
  apply BitVec.eq_of_getLsbD_eq
  intro j hj
  have : j < 128 := by omega
  simp [byteAt, zext128, hj, this]

/-- `zext_128(b)`: every other flat byte is 0x00 (R14). -/
theorem byteAt_zext128_pos (b : Byte) (i : Nat) (hi : 0 < i) : byteAt (zext128 b) i = 0 := by
  apply BitVec.eq_of_getLsbD_eq
  intro j hj
  have h : b.getLsbD (8 * i + j) = false := BitVec.getLsbD_of_ge _ _ (by omega)
  simp [byteAt, zext128, h]

/-- A number below 32 names the register of that index. -/
@[simp] theorem regOf_val (n : Nat) (h : n < 32) : (regOf n).val = n := by
  simp [regOf, Nat.mod_eq_of_lt h]

theorem regOf_inj {m n : Nat} (hm : m < 32) (hn : n < 32) : regOf m = regOf n ↔ m = n := by
  rw [Fin.ext_iff, regOf_val m hm, regOf_val n hn]

@[simp] theorem regOf_self (r : Reg) : regOf r.val = r := by
  rw [Fin.ext_iff, regOf_val _ r.isLt]

end Sys2Proof.Machine
end

