-- ==== Sys2Proof/Laws/Decode.lean ====
section
/-! SUPPORT. The fields of an encoded word, format by format, and what each format's decoder can answer. -/

namespace Sys2Proof

/-- Bits of a concatenation: the low part gives those below its width, the high part those above. -/
theorem extractLsb'_append_low {m n : Nat} (x : BitVec m) (y : BitVec n) (lo k : Nat) (h : lo + k ≤ n) :
    (x ++ y).extractLsb' lo k = y.extractLsb' lo k := by
  apply BitVec.eq_of_getLsbD_eq
  intro i hi
  have h1 : lo + i < n := by omega
  simp [BitVec.getLsbD_append, hi, h1]

theorem extractLsb'_append_high {m n : Nat} (x : BitVec m) (y : BitVec n) (lo k : Nat) (h : n ≤ lo) :
    (x ++ y).extractLsb' lo k = x.extractLsb' (lo - n) k := by
  apply BitVec.eq_of_getLsbD_eq
  intro i hi
  have h1 : ¬ lo + i < n := by omega
  have h2 : lo + i - n = lo - n + i := by omega
  simp [BitVec.getLsbD_append, hi, h1, h2]

theorem extractLsb'_all {n : Nat} (x : BitVec n) : x.extractLsb' 0 n = x := by
  apply BitVec.eq_of_getLsbD_eq
  intro i hi
  simp [hi]

theorem extractLsb'_zero {n : Nat} (lo k : Nat) : (0#n).extractLsb' lo k = 0#k := by
  apply BitVec.eq_of_getLsbD_eq
  intro i hi
  simp

theorem regBits_toFin (r : Reg) : (regBits r).toFin = r := rfl

/-- The opcode of a word built from an opcode and 24 further bits (R76). -/
theorem opcodeField_append (op : BitVec 8) (x : BitVec 24) : opcodeField (op ++ x) = op := by
  unfold opcodeField
  rw [extractLsb'_append_high _ _ _ _ (Nat.le_refl 24)]
  exact extractLsb'_all op

/-- Decoding by format undoes encoding by format (R76). -/
theorem formatZ_encodeZ (op : BitVec 8) (i : Instr) : formatZ (encodeZ op) i = .ok i := by
  unfold formatZ ifZeroBits encodeZ
  rw [extractLsb'_append_low _ _ _ _ (by omega), extractLsb'_all, if_pos rfl]

theorem formatR1_encodeR1 (op : BitVec 8) (r : Reg) (f : Reg → Instr) : formatR1 (encodeR1 op r) f = .ok (f r) := by
  unfold formatR1 ifZeroBits encodeR1 firstRegField
  rw [extractLsb'_append_low _ _ _ _ (by omega), extractLsb'_append_low _ _ _ _ (by omega), extractLsb'_all,
    if_pos rfl, extractLsb'_append_low _ _ _ _ (by omega), extractLsb'_append_high _ _ _ _ (by omega), Nat.sub_self,
    extractLsb'_all, regBits_toFin]

theorem formatR2_encodeR2 (op : BitVec 8) (rd rs : Reg) (f : Reg → Reg → Instr) :
    formatR2 (encodeR2 op rd rs) f = .ok (f rd rs) := by
  unfold formatR2 ifZeroBits encodeR2 firstRegField secondRegField
  rw [extractLsb'_append_low _ _ 0 _ (by omega), extractLsb'_append_low _ _ 0 _ (by omega),
    extractLsb'_append_low _ _ 0 _ (by omega), extractLsb'_all,
    if_pos rfl, extractLsb'_append_low _ _ 19 _ (by omega), extractLsb'_append_high _ _ 19 _ (by omega), Nat.sub_self,
    extractLsb'_all, regBits_toFin, extractLsb'_append_low _ _ 14 _ (by omega),
    extractLsb'_append_low _ _ 14 _ (by omega), extractLsb'_append_high _ _ 14 _ (by omega), Nat.sub_self,
    extractLsb'_all, regBits_toFin]

theorem formatI1_encodeI1 (op : BitVec 8) (a : Byte) (f : Byte → Instr) : formatI1 (encodeI1 op a) f = .ok (f a) := by
  unfold formatI1 ifZeroBits encodeI1 firstByteField
  rw [extractLsb'_append_low _ _ 0 _ (by omega), extractLsb'_append_low _ _ 0 _ (by omega), extractLsb'_all,
    if_pos rfl, extractLsb'_append_low _ _ 16 _ (by omega), extractLsb'_append_high _ _ 16 _ (by omega), Nat.sub_self,
    extractLsb'_all]

theorem formatI2_encodeI2 (op : BitVec 8) (a b : Byte) (f : Byte → Byte → Instr) :
    formatI2 (encodeI2 op a b) f = .ok (f a b) := by
  unfold formatI2 ifZeroBits encodeI2 firstByteField secondByteField
  rw [extractLsb'_append_low _ _ 0 _ (by omega), extractLsb'_append_low _ _ 0 _ (by omega),
    extractLsb'_append_low _ _ 0 _ (by omega), extractLsb'_all,
    if_pos rfl, extractLsb'_append_low _ _ 16 _ (by omega), extractLsb'_append_high _ _ 16 _ (by omega), Nat.sub_self,
    extractLsb'_all, extractLsb'_append_low _ _ 8 _ (by omega), extractLsb'_append_low _ _ 8 _ (by omega),
    extractLsb'_append_high _ _ 8 _ (by omega), Nat.sub_self, extractLsb'_all]

theorem formatM_encodeM (op : BitVec 8) (rd : Reg) (off : Offset) (f : Reg → Offset → Instr) :
    formatM (encodeM op rd off) f = .ok (f rd off) := by
  unfold formatM ifZeroBits encodeM firstRegField offsetField
  rw [extractLsb'_append_low _ _ 16 _ (by omega), extractLsb'_append_low _ _ 16 _ (by omega),
    extractLsb'_append_high _ _ 16 _ (by omega), Nat.sub_self, extractLsb'_all, if_pos rfl,
    extractLsb'_append_low _ _ 19 _ (by omega), extractLsb'_append_high _ _ 19 _ (by omega), Nat.sub_self,
    extractLsb'_all, regBits_toFin, extractLsb'_append_low _ _ 0 _ (by omega),
    extractLsb'_append_low _ _ 0 _ (by omega), extractLsb'_append_low _ _ 0 _ (by omega), extractLsb'_all]

theorem formatMO_encodeMO (op : BitVec 8) (off : Offset) (f : Offset → Instr) :
    formatMO (encodeMO op off) f = .ok (f off) := by
  unfold formatMO ifZeroBits encodeMO offsetField
  rw [extractLsb'_append_low _ _ 16 _ (by omega), extractLsb'_append_high _ _ 16 _ (by omega), Nat.sub_self,
    extractLsb'_all, if_pos rfl, extractLsb'_append_low _ _ 0 _ (by omega), extractLsb'_append_low _ _ 0 _ (by omega),
    extractLsb'_all]

/-- What a format's zero check can answer. -/
theorem ifZeroBits_eq_ok {c : Command} {lo n : Nat} {i j : Instr} (h : ifZeroBits c lo n i = .ok j) :
    c.extractLsb' lo n = 0#n ∧ j = i := by
  unfold ifZeroBits at h
  split at h
  · next hz => cases h; exact ⟨hz, rfl⟩
  · cases h

end Sys2Proof
end

