-- ==== Sys2Proof/Laws/Memory.lean ====
section
/-! SUPPORT. The message memory: what every operation on it does, and that every operation keeps the canonical form. -/

namespace Sys2Proof.Machine

@[simp] theorem Memory.read_nil (a : Nat) : Memory.read [] a = none := rfl

theorem Memory.read_cons (b : Nat) (v : Byte) (m : Memory) (a : Nat) :
    Memory.read ((b, v) :: m) a = if a = b then some v else Memory.read m a := rfl

/-- An address below every listed one has no value. -/
theorem Memory.read_of_lt (m : Memory) (a : Nat) (h : ∀ c ∈ m, a < c.1) : Memory.read m a = none := by
  induction m with
  | nil => rfl
  | cons c m ih =>
    obtain ⟨b, v⟩ := c
    have hb : a < b := h (b, v) (by simp)
    rw [Memory.read_cons, if_neg (by omega), ih fun c hc => h c (by simp [hc])]

/-- Everything `write` does: the byte at `a` reads `v`, every other address reads as before. -/
theorem Memory.read_write (m : Memory) (a : Nat) (v : Byte) (b : Nat) :
    Memory.read (Memory.write m a v) b = if b = a then some v else Memory.read m b := by
  induction m with
  | nil => simp [Memory.write, Memory.read_cons]
  | cons c m ih =>
    obtain ⟨c, w⟩ := c
    simp only [Memory.write]
    split
    · simp [Memory.read_cons]
    · split
      · subst_vars
        simp only [Memory.read_cons]
        split <;> rfl
      · rw [Memory.read_cons, ih, Memory.read_cons]
        split <;> split <;> first | rfl | omega

/-- Which addresses a write leaves listed. -/
theorem Memory.mem_write {m : Memory} {a : Nat} {v : Byte} {c : Host.Cell} (h : c ∈ Memory.write m a v) :
    c.1 = a ∨ c ∈ m := by
  induction m with
  | nil => simp [Memory.write] at h; simp [h]
  | cons d m ih =>
    obtain ⟨b, w⟩ := d
    simp only [Memory.write] at h
    split at h
    · rcases List.mem_cons.1 h with rfl | h
      · exact .inl rfl
      · exact .inr h
    · split at h
      · rcases List.mem_cons.1 h with rfl | h
        · exact .inl rfl
        · exact .inr (List.mem_cons_of_mem _ h)
      · rcases List.mem_cons.1 h with rfl | h
        · exact .inr (by simp)
        · rcases ih h with h | h
          · exact .inl h
          · exact .inr (List.mem_cons_of_mem _ h)

/-- `write` keeps the addresses strictly rising. -/
theorem Memory.wf_write {m : Memory} (h : Memory.wf m) (a : Nat) (v : Byte) : Memory.wf (Memory.write m a v) := by
  induction m with
  | nil => simp [Memory.wf, Memory.write]
  | cons c m ih =>
    obtain ⟨b, w⟩ := c
    obtain ⟨hlt, hm⟩ := List.pairwise_cons.1 h
    simp only [Memory.write]
    split
    · rename_i hab
      refine List.pairwise_cons.2 ⟨fun c hc => ?_, h⟩
      rcases List.mem_cons.1 hc with rfl | hc
      · exact hab
      · exact Nat.lt_trans hab (hlt c hc)
    · split
      · subst_vars
        exact List.pairwise_cons.2 ⟨hlt, hm⟩
      · refine List.pairwise_cons.2 ⟨fun c hc => ?_, ih hm⟩
        rcases Memory.mem_write hc with hc | hc
        · simp only; omega
        · exact hlt c hc

/-- Two memories in canonical form that read alike are the same list. -/
theorem Memory.ext {m n : Memory} (hm : Memory.wf m) (hn : Memory.wf n)
    (h : ∀ a, Memory.read m a = Memory.read n a) : m = n := by
  induction m generalizing n with
  | nil =>
    cases n with
    | nil => rfl
    | cons d n => have := h d.1; simp [Memory.read] at this
  | cons c m ih =>
    obtain ⟨a, v⟩ := c
    obtain ⟨hca, hm'⟩ := List.pairwise_cons.1 hm
    cases n with
    | nil => have := h a; simp [Memory.read] at this
    | cons d n =>
      obtain ⟨b, w⟩ := d
      obtain ⟨hdb, hn'⟩ := List.pairwise_cons.1 hn
      have hab : a = b := by
        rcases Nat.lt_trichotomy a b with hlt | heq | hgt
        · have h1 := h a
          rw [Memory.read_cons, if_pos rfl, Memory.read_cons, if_neg (by omega),
            Memory.read_of_lt n a fun c hc => Nat.lt_trans hlt (hdb c hc)] at h1
          cases h1
        · exact heq
        · have h1 := h b
          rw [Memory.read_cons, if_neg (by omega), Memory.read_cons, if_pos rfl,
            Memory.read_of_lt m b fun c hc => Nat.lt_trans hgt (hca c hc)] at h1
          cases h1
      subst hab
      have hv : v = w := by have h1 := h a; simpa [Memory.read_cons] using h1
      subst hv
      rw [ih hm' hn' fun x => ?_]
      by_cases hx : x = a
      · subst hx
        rw [Memory.read_of_lt m x fun c hc => hca c hc, Memory.read_of_lt n x fun c hc => hdb c hc]
      · have h1 := h x
        rwa [Memory.read_cons, if_neg hx, Memory.read_cons, if_neg hx] at h1

/-- `written` says that every byte of the range has a value. -/
theorem Memory.written_iff (m : Memory) (a n : Nat) :
    Memory.written m a n = true ↔ ∀ i, i < n → ∃ v, Memory.read m (a + i) = some v := by
  simp [Memory.written, Option.isSome_iff_exists]

/-- A Word read from a written range has the bytes of the range, in ascending order (`20_memory.md` R52). -/
theorem Memory.read_eq_byteAt_wordAt {m : Memory} {a : Nat} (h : Memory.written m a 16 = true) (i : Nat) (hi : i < 16) :
    Memory.read m (a + i) = some (byteAt (Memory.wordAt m a) i) := by
  obtain ⟨v, hv⟩ := (Memory.written_iff m a 16).1 h i hi
  rw [Memory.wordAt, byteAt_wordOfBytes _ _ hi, hv, Option.getD_some]

/-- A fold of byte writes at rising addresses: the bytes written read back, the others as before. -/
theorem Memory.read_foldl_write (f : Nat → Byte) (a n : Nat) (m : Memory) (b : Nat) :
    Memory.read ((List.range n).foldl (fun m i => Memory.write m (a + i) (f i)) m) b =
      if a ≤ b ∧ b < a + n then some (f (b - a)) else Memory.read m b := by
  induction n with
  | zero => simp [show ¬(a ≤ b ∧ b < a) by omega]
  | succ n ih =>
    rw [List.range_succ, List.foldl_append, List.foldl_cons, List.foldl_nil, Memory.read_write, ih]
    by_cases h : b = a + n
    · subst h; simp
    · rw [if_neg h]
      by_cases h2 : a ≤ b ∧ b < a + n
      · rw [if_pos h2, if_pos ⟨h2.1, by omega⟩]
      · rw [if_neg h2, if_neg (by omega)]

/-- Everything `writeWord` does: the 16 bytes of the range hold the Word's, every other address reads as before
(`20_memory.md` R57, R58). -/
theorem Memory.read_writeWord (m : Memory) (a : Nat) (w : Word) (b : Nat) :
    Memory.read (Memory.writeWord m a w) b =
      if a ≤ b ∧ b < a + 16 then some (byteAt w (b - a)) else Memory.read m b := by
  unfold Memory.writeWord
  exact Memory.read_foldl_write (fun i => byteAt w i) a 16 m b

/-- `writeWord` keeps the addresses strictly rising. -/
theorem Memory.wf_writeWord {m : Memory} (h : Memory.wf m) (a : Nat) (w : Word) :
    Memory.wf (Memory.writeWord m a w) := by
  unfold Memory.writeWord
  generalize List.range 16 = l
  induction l generalizing m with
  | nil => exact h
  | cons i l ih => exact ih (Memory.wf_write h _ _)

/-- Which addresses `writeWord` leaves listed. -/
theorem Memory.mem_writeWord {m : Memory} {a : Nat} {w : Word} {c : Host.Cell}
    (h : c ∈ Memory.writeWord m a w) : (a ≤ c.1 ∧ c.1 < a + 16) ∨ c ∈ m := by
  have key : ∀ (l : List Nat) (m : Memory), (∀ i ∈ l, i < 16) →
      c ∈ l.foldl (fun m i => Memory.write m (a + i) (byteAt w i)) m → (a ≤ c.1 ∧ c.1 < a + 16) ∨ c ∈ m := by
    intro l
    induction l with
    | nil => intro m _ h; exact .inr h
    | cons i l ih =>
      intro m hl h
      rcases ih _ (fun j hj => hl j (List.mem_cons_of_mem _ hj)) h with h | h
      · exact .inl h
      · rcases Memory.mem_write h with h | h
        · have := hl i (by simp)
          exact .inl (by omega)
        · exact .inr h
  unfold Memory.writeWord at h
  exact key (List.range 16) m (fun i hi => List.mem_range.1 hi) h

end Sys2Proof.Machine
end

