-- ==== Sys2Proof/Laws/State.lean ====
section
/-! SUPPORT. One lemma per field per update, each true by rfl, so that no later proof unfolds a record update. -/

namespace Sys2Proof.Machine

section WriteX

variable (s : State) (r : Reg) (v : Word)

@[simp] theorem State.writeX_x : (s.writeX r v).x = s.x.set r.val v r.isLt := rfl
@[simp] theorem State.writeX_k : (s.writeX r v).k = s.k := rfl
@[simp] theorem State.writeX_status : (s.writeX r v).status = s.status := rfl
@[simp] theorem State.writeX_dout : (s.writeX r v).dout = s.dout := rfl
@[simp] theorem State.writeX_msg : (s.writeX r v).msg = s.msg := rfl
@[simp] theorem State.writeX_params : (s.writeX r v).params = s.params := rfl
@[simp] theorem State.writeX_pending : (s.writeX r v).pending = s.pending := rfl
@[simp] theorem State.writeX_free : (s.writeX r v).free = s.free := rfl

end WriteX

section WriteBank

variable (s : State) (b n : Nat) (f : Nat → Word)

@[simp] theorem State.writeBank_k : (s.writeBank b n f).k = s.k := rfl
@[simp] theorem State.writeBank_status : (s.writeBank b n f).status = s.status := rfl
@[simp] theorem State.writeBank_dout : (s.writeBank b n f).dout = s.dout := rfl
@[simp] theorem State.writeBank_msg : (s.writeBank b n f).msg = s.msg := rfl
@[simp] theorem State.writeBank_params : (s.writeBank b n f).params = s.params := rfl
@[simp] theorem State.writeBank_pending : (s.writeBank b n f).pending = s.pending := rfl
@[simp] theorem State.writeBank_free : (s.writeBank b n f).free = s.free := rfl

end WriteBank

section WriteDout

variable (s : State) (w : Word)

@[simp] theorem State.writeDout_x : (s.writeDout w).x = s.x := rfl
@[simp] theorem State.writeDout_k : (s.writeDout w).k = s.k := rfl
@[simp] theorem State.writeDout_status : (s.writeDout w).status = s.status := rfl
@[simp] theorem State.writeDout_dout : (s.writeDout w).dout = w := rfl
@[simp] theorem State.writeDout_msg : (s.writeDout w).msg = s.msg := rfl
@[simp] theorem State.writeDout_params : (s.writeDout w).params = s.params := rfl
@[simp] theorem State.writeDout_pending : (s.writeDout w).pending = s.pending := rfl
@[simp] theorem State.writeDout_free : (s.writeDout w).free = s.free := rfl

end WriteDout

section WithK

variable (s : State) (w : Word)

@[simp] theorem State.withK_x : (s.withK w).x = s.x := rfl
@[simp] theorem State.withK_k : (s.withK w).k = w := rfl
@[simp] theorem State.withK_status : (s.withK w).status = s.status := rfl
@[simp] theorem State.withK_dout : (s.withK w).dout = s.dout := rfl
@[simp] theorem State.withK_msg : (s.withK w).msg = s.msg := rfl
@[simp] theorem State.withK_params : (s.withK w).params = s.params := rfl
@[simp] theorem State.withK_pending : (s.withK w).pending = s.pending := rfl
@[simp] theorem State.withK_free : (s.withK w).free = s.free := rfl

end WithK

section WithMsg

variable (s : State) (m : Memory)

@[simp] theorem State.withMsg_x : (s.withMsg m).x = s.x := rfl
@[simp] theorem State.withMsg_k : (s.withMsg m).k = s.k := rfl
@[simp] theorem State.withMsg_status : (s.withMsg m).status = s.status := rfl
@[simp] theorem State.withMsg_dout : (s.withMsg m).dout = s.dout := rfl
@[simp] theorem State.withMsg_msg : (s.withMsg m).msg = m := rfl
@[simp] theorem State.withMsg_params : (s.withMsg m).params = s.params := rfl
@[simp] theorem State.withMsg_pending : (s.withMsg m).pending = s.pending := rfl
@[simp] theorem State.withMsg_free : (s.withMsg m).free = s.free := rfl

end WithMsg

section Raise

variable (s : State) (c : Cause)

@[simp] theorem State.raise_x : (s.raise c).x = s.x := rfl
@[simp] theorem State.raise_k : (s.raise c).k = s.k := rfl
@[simp] theorem State.raise_status : (s.raise c).status = statusOfCause c := rfl
@[simp] theorem State.raise_dout : (s.raise c).dout = s.dout := rfl
@[simp] theorem State.raise_msg : (s.raise c).msg = s.msg := rfl
@[simp] theorem State.raise_params : (s.raise c).params = s.params := rfl
@[simp] theorem State.raise_pending : (s.raise c).pending = s.pending := rfl
@[simp] theorem State.raise_free : (s.raise c).free = s.free := rfl

end Raise

section Advance

variable (s : State)

@[simp] theorem State.advance_x : s.advance.x = s.x := rfl
@[simp] theorem State.advance_k : s.advance.k = s.k := rfl
@[simp] theorem State.advance_status : s.advance.status = s.status := rfl
@[simp] theorem State.advance_dout : s.advance.dout = s.dout := rfl
@[simp] theorem State.advance_msg : s.advance.msg = s.msg := rfl
@[simp] theorem State.advance_params : s.advance.params = s.params := rfl
@[simp] theorem State.advance_pending : s.advance.pending = s.pending.tail := rfl
@[simp] theorem State.advance_free : s.advance.free = s.free := rfl

end Advance

section WithProgram

variable (s : State) (l : List HostInput)

@[simp] theorem State.withProgram_x : (s.withProgram l).x = s.x := rfl
@[simp] theorem State.withProgram_k : (s.withProgram l).k = s.k := rfl
@[simp] theorem State.withProgram_status : (s.withProgram l).status = s.status := rfl
@[simp] theorem State.withProgram_dout : (s.withProgram l).dout = s.dout := rfl
@[simp] theorem State.withProgram_msg : (s.withProgram l).msg = s.msg := rfl
@[simp] theorem State.withProgram_params : (s.withProgram l).params = s.params := rfl
@[simp] theorem State.withProgram_pending : (s.withProgram l).pending = l := rfl
@[simp] theorem State.withProgram_free : (s.withProgram l).free = s.free := rfl

end WithProgram

section TakeReset

variable (s : State)

@[simp] theorem State.takeReset_k : s.takeReset.k = Config.freeWord (s.free + 32) := rfl
@[simp] theorem State.takeReset_status : s.takeReset.status = 0 := rfl
@[simp] theorem State.takeReset_dout : s.takeReset.dout = 0 := rfl
@[simp] theorem State.takeReset_msg : s.takeReset.msg = [] := rfl
@[simp] theorem State.takeReset_params : s.takeReset.params = s.params := rfl
@[simp] theorem State.takeReset_pending : s.takeReset.pending = s.pending := rfl
@[simp] theorem State.takeReset_free : s.takeReset.free = s.free + 33 := rfl

end TakeReset

section ResetWith

variable (p : Config.Params)

@[simp] theorem State.resetWith_k : (State.resetWith p).k = Config.freeWord 32 := rfl
@[simp] theorem State.resetWith_status : (State.resetWith p).status = 0 := rfl
@[simp] theorem State.resetWith_dout : (State.resetWith p).dout = 0 := rfl
@[simp] theorem State.resetWith_msg : (State.resetWith p).msg = [] := rfl
@[simp] theorem State.resetWith_params : (State.resetWith p).params = p := rfl
@[simp] theorem State.resetWith_pending : (State.resetWith p).pending = [] := rfl
@[simp] theorem State.resetWith_free : (State.resetWith p).free = 33 := rfl

end ResetWith

section Din

variable (s : State)

/-- The port carries what the host presents (`30_encoding.md` R75). -/
theorem State.din_of_pending (c : Command) (d : Word) (rest : List HostInput)
    (h : s.pending = .command c d :: rest) : s.din = d := by
  simp [State.din, h]

theorem State.din_congr {s t : State} (h : t.pending = s.pending) : t.din = s.din := by
  simp [State.din, h]

theorem State.msgBytes_congr {s t : State} (h : t.params = s.params) : t.msgBytes = s.msgBytes := by
  simp [State.msgBytes, h]

end Din

end Sys2Proof.Machine
end

