-- ==== Sys2Proof/Laws/Ops.lean ====
section
/-! SUPPORT. What each shared operation over the state does, said once: the register accessors, the banks, the checks on
a presented command. -/

namespace Sys2Proof.Machine

theorem regFile_get (f : Reg → Word) (r : Reg) : (regFile f).get r = f r := by
  unfold regFile
  rw [Vector.get_eq_getElem, Vector.getElem_ofFn]

theorem freeRegs_get (n : Nat) (r : Reg) : (freeRegs n).get r = Config.freeWord (n + r.val) :=
  regFile_get _ r

/-- Writing one register: it holds the value, every other is as before. -/
theorem State.readX_writeX (s : State) (r : Reg) (v : Word) (q : Reg) :
    (s.writeX r v).readX q = if q = r then v else s.readX q := by
  unfold State.readX
  rw [State.writeX_x, Vector.get_eq_getElem, Vector.getElem_set, Vector.get_eq_getElem]
  by_cases h : q = r
  · rw [if_pos h, if_pos (by rw [h])]
  · rw [if_neg h, if_neg fun e => h (Fin.ext e.symm)]

@[simp] theorem State.readX_writeX_self (s : State) (r : Reg) (v : Word) : (s.writeX r v).readX r = v := by
  rw [State.readX_writeX, if_pos rfl]

theorem State.readX_writeX_of_ne (s : State) {r q : Reg} (v : Word) (h : q ≠ r) :
    (s.writeX r v).readX q = s.readX q := by
  rw [State.readX_writeX, if_neg h]

/-- A simultaneous assignment to a bank: the bank holds the new values, every other register is as before. -/
theorem State.readX_writeBank (s : State) (b n : Nat) (f : Nat → Word) (r : Reg) :
    (s.writeBank b n f).readX r = if b ≤ r.val ∧ r.val < b + n then f (r.val - b) else s.readX r := by
  unfold State.readX State.writeBank
  exact regFile_get _ r

/-- The same for a register named by a number. -/
theorem State.readN_writeBank (s : State) (b n : Nat) (f : Nat → Word) (m : Nat) (hm : m < 32) :
    (s.writeBank b n f).readN m = if b ≤ m ∧ m < b + n then f (m - b) else s.readN m := by
  unfold State.readN
  rw [State.readX_writeBank, regOf_val m hm]

theorem State.readN_writeBank_of_mem (s : State) (b n : Nat) (f : Nat → Word) (m : Nat) (hm : m < 32)
    (h : b ≤ m ∧ m < b + n) : (s.writeBank b n f).readN m = f (m - b) := by
  rw [State.readN_writeBank _ _ _ _ _ hm, if_pos h]

theorem State.readN_writeBank_of_not_mem (s : State) (b n : Nat) (f : Nat → Word) (m : Nat) (hm : m < 32)
    (h : ¬(b ≤ m ∧ m < b + n)) : (s.writeBank b n f).readN m = s.readN m := by
  rw [State.readN_writeBank _ _ _ _ _ hm, if_neg h]

theorem State.readX_eq_readN (s : State) (r : Reg) : s.readX r = s.readN r.val := by
  unfold State.readN
  rw [regOf_self]

theorem State.readN_writeX (s : State) (n m : Nat) (hn : n < 32) (hm : m < 32) (v : Word) :
    (s.writeX (regOf n) v).readN m = if m = n then v else s.readN m := by
  unfold State.readN
  rw [State.readX_writeX]
  by_cases h : m = n
  · rw [if_pos h, if_pos (by rw [h])]
  · rw [if_neg h, if_neg fun e => h ((regOf_inj hm hn).1 e)]

/-- Two register files that read alike are the same. -/
theorem State.x_ext {s t : State} (h : ∀ r, s.readX r = t.readX r) : s.x = t.x := by
  apply Vector.ext
  intro i hi
  have := h ⟨i, hi⟩
  unfold State.readX at this
  rwa [Vector.get_eq_getElem, Vector.get_eq_getElem] at this

/-- Two states with the same registers and the same other fields are the same. -/
theorem State.ext {s t : State} (hx : ∀ r, s.readX r = t.readX r) (hk : s.k = t.k) (hst : s.status = t.status)
    (hd : s.dout = t.dout) (hm : s.msg = t.msg) (hp : s.params = t.params) (hq : s.pending = t.pending)
    (hf : s.free = t.free) : s = t := by
  have h := State.x_ext hx
  cases s
  cases t
  simp_all

@[simp] theorem State.readX_withK (s : State) (w : Word) (r : Reg) : (s.withK w).readX r = s.readX r := rfl
@[simp] theorem State.readX_writeDout (s : State) (w : Word) (r : Reg) : (s.writeDout w).readX r = s.readX r := rfl
@[simp] theorem State.readX_withMsg (s : State) (m : Memory) (r : Reg) : (s.withMsg m).readX r = s.readX r := rfl
@[simp] theorem State.readX_raise (s : State) (c : Cause) (r : Reg) : (s.raise c).readX r = s.readX r := rfl
@[simp] theorem State.readX_advance (s : State) (r : Reg) : s.advance.readX r = s.readX r := rfl
@[simp] theorem State.readX_withProgram (s : State) (l : List HostInput) (r : Reg) :
    (s.withProgram l).readX r = s.readX r := rfl
@[simp] theorem State.readN_withK (s : State) (w : Word) (n : Nat) : (s.withK w).readN n = s.readN n := rfl

/-- The reset step's registers are free values (log 6). -/
theorem State.readX_takeReset (s : State) (r : Reg) : s.takeReset.readX r = Config.freeWord (s.free + r.val) :=
  freeRegs_get s.free r

/-- Right after reset the registers are free values (log 3). -/
theorem State.readX_resetWith (p : Config.Params) (r : Reg) :
    (State.resetWith p).readX r = Config.freeWord r.val :=
  (freeRegs_get 0 r).trans (by rw [Nat.zero_add])

/-- `inMsg` is the range check of `20_memory.md` R56. -/
theorem State.inMsg_iff (s : State) (a n : Nat) : s.inMsg a n = true ↔ a + n ≤ s.msgBytes := by
  simp [State.inMsg]

/-- `MSG_BYTES` is a multiple of 128 from 128 to 65536 (`20_memory.md` R51). -/
theorem State.msgBytes_range (s : State) : s.msgBytes % 128 = 0 ∧ 128 ≤ s.msgBytes ∧ s.msgBytes ≤ 65536 := by
  have := s.params.extraBlocks.isLt
  unfold State.msgBytes
  omega

/-- The status of fault entry is 0x03 or 0x05 (`60_exceptions.md` R214). -/
theorem statusOfCause_eq (c : Cause) :
    statusOfCause c = match c with | .illegalCommand => 0x03#8 | .addressRange => 0x05#8 := by
  cases c <;> decide

@[simp] theorem statusErr_statusOfCause (c : Cause) : statusErr (statusOfCause c) = true := by
  cases c <;> decide

@[simp] theorem statusErr_zero : statusErr 0#8 = false := by decide

/-- What becomes of a presented word, said once (`60_exceptions.md` R216, checks 1 and 2). -/
theorem State.accept_cases (s : State) (c : Command) :
    (s.halted = true ∧ c ≠ rdstWord ∧ s.accept c = .discarded) ∨
    ((s.halted = false ∨ c = rdstWord) ∧ (∃ e, decode c = .error e) ∧ s.accept c = .illegal) ∨
    ((s.halted = false ∨ c = rdstWord) ∧ ∃ i, decode c = .ok i ∧ s.accept c = .execute i) := by
  unfold State.accept
  by_cases h : s.halted = true ∧ c ≠ rdstWord
  · left
    exact ⟨h.1, h.2, by simp [h.1, h.2]⟩
  · right
    have hc : (s.halted && c != rdstWord) = false := by
      cases hh : s.halted
      · rfl
      · have : c = rdstWord := by
          by_contra hne
          exact h ⟨hh, hne⟩
        simp [this]
    have hor : s.halted = false ∨ c = rdstWord := by
      by_contra hn
      rw [not_or] at hn
      exact h ⟨by simpa using hn.1, hn.2⟩
    rw [hc]
    cases hd : decode c with
    | error e => exact .inl ⟨hor, ⟨e, rfl⟩, rfl⟩
    | ok i => exact .inr ⟨hor, i, rfl, rfl⟩

/-- The word `RDST` decodes to itself. -/
theorem decode_rdstWord : decode rdstWord = .ok .rdst := by decide

end Sys2Proof.Machine
end

