-- ==== Sys2Proof/Laws/Meanings.lean ====
section
/-! SUPPORT. What the Word functions and the grid operations compute, byte by byte and register by register. -/

namespace Sys2Proof.Machine

/-- `substitute`, byte by byte (`41_sbox.md` R100). -/
theorem byteAt_substitute (w : Word) (i : Nat) (hi : i < 16) : byteAt (substitute w) i = sbox (byteAt w i) :=
  byteAt_wordOfBytes _ i hi

/-- `invsubstitute`, byte by byte (`41_sbox.md` R104). -/
theorem byteAt_invSubstitute (w : Word) (i : Nat) (hi : i < 16) :
    byteAt (invSubstitute w) i = invSbox (byteAt w i) :=
  byteAt_wordOfBytes _ i hi

/-- `shiftrows` on the matrix view (`42_aes_round.md` R116). -/
theorem matrixAt_shiftRows (w : Word) (r c : Nat) (hr : r < 4) (hc : c < 4) :
    matrixAt (shiftRows w) r c = matrixAt w r ((c + r) % 4) := by
  unfold matrixAt shiftRows
  rw [byteAt_wordOfBytes _ _ (by omega), show (4 * c + r) % 4 = r by omega, show (4 * c + r) / 4 = c by omega]
  rfl

/-- `mixcolumns`, column by column (`42_aes_round.md` R117). -/
theorem wordColumn_mixColumns (w : Word) (c : Nat) (hc : c < 4) :
    wordColumn (mixColumns w) c = mds (wordColumn w c) := by
  unfold wordColumn matrixAt mixColumns
  rw [byteAt_wordOfBytes _ _ (by omega), byteAt_wordOfBytes _ _ (by omega), byteAt_wordOfBytes _ _ (by omega),
    byteAt_wordOfBytes _ _ (by omega), show (4 * c + 0) / 4 = c by omega, show (4 * c + 1) / 4 = c by omega,
    show (4 * c + 2) / 4 = c by omega, show (4 * c + 3) / 4 = c by omega, show (4 * c + 0) % 4 = 0 by omega,
    show (4 * c + 1) % 4 = 1 by omega, show (4 * c + 2) % 4 = 2 by omega, show (4 * c + 3) % 4 = 3 by omega]
  rfl

/-- `addroundkey`, byte by byte (`42_aes_round.md` R118). -/
theorem byteAt_addRoundKey (w key : Word) (i : Nat) : byteAt (addRoundKey w key) i = byteAt w i ^^^ byteAt key i :=
  byteAt_xor w key i

/-- The key advance, byte by byte (`43_key_schedule.md` R142). -/
theorem byteAt_keyAdvanced (key : Word) (i : Nat) (hi : i < 16) :
    byteAt (keyAdvanced key) i = if i = 0 then byteAt key 0 + 1 else byteAt key i :=
  byteAt_wordOfBytes _ i hi

/-! The bank commands write registers only. -/

@[simp] theorem State.build_k (s : State) : s.build.k = s.k := rfl
@[simp] theorem State.build_status (s : State) : s.build.status = s.status := rfl
@[simp] theorem State.build_dout (s : State) : s.build.dout = s.dout := rfl
@[simp] theorem State.build_msg (s : State) : s.build.msg = s.msg := rfl
@[simp] theorem State.build_params (s : State) : s.build.params = s.params := rfl
@[simp] theorem State.build_pending (s : State) : s.build.pending = s.pending := rfl
@[simp] theorem State.build_free (s : State) : s.build.free = s.free := rfl

@[simp] theorem State.bigshr_k (s : State) : s.bigshr.k = s.k := rfl
@[simp] theorem State.bigshr_status (s : State) : s.bigshr.status = s.status := rfl
@[simp] theorem State.bigshr_dout (s : State) : s.bigshr.dout = s.dout := rfl
@[simp] theorem State.bigshr_msg (s : State) : s.bigshr.msg = s.msg := rfl
@[simp] theorem State.bigshr_params (s : State) : s.bigshr.params = s.params := rfl
@[simp] theorem State.bigshr_pending (s : State) : s.bigshr.pending = s.pending := rfl
@[simp] theorem State.bigshr_free (s : State) : s.bigshr.free = s.free := rfl

@[simp] theorem State.bigmix_k (s : State) : s.bigmix.k = s.k := rfl
@[simp] theorem State.bigmix_status (s : State) : s.bigmix.status = s.status := rfl
@[simp] theorem State.bigmix_dout (s : State) : s.bigmix.dout = s.dout := rfl
@[simp] theorem State.bigmix_msg (s : State) : s.bigmix.msg = s.msg := rfl
@[simp] theorem State.bigmix_params (s : State) : s.bigmix.params = s.params := rfl
@[simp] theorem State.bigmix_pending (s : State) : s.bigmix.pending = s.pending := rfl
@[simp] theorem State.bigmix_free (s : State) : s.bigmix.free = s.free := rfl

@[simp] theorem State.final_k (s : State) : s.final.k = s.k := rfl
@[simp] theorem State.final_status (s : State) : s.final.status = s.status := rfl
@[simp] theorem State.final_dout (s : State) : s.final.dout = s.dout := rfl
@[simp] theorem State.final_msg (s : State) : s.final.msg = s.msg := rfl
@[simp] theorem State.final_params (s : State) : s.final.params = s.params := rfl
@[simp] theorem State.final_pending (s : State) : s.final.pending = s.pending := rfl
@[simp] theorem State.final_free (s : State) : s.final.free = s.free := rfl

/-- Everything `BUILD` does (`45_compressor.md` R178, R179). -/
theorem State.readN_build (s : State) (m : Nat) (hm : m < 32) :
    s.build.readN m =
      if m < 16 then
        if s.params.gridW67 = .sourceDefect ∧ (m = 14 ∨ m = 15) then s.readN 29 else s.readN (16 + m)
      else s.readN m := by
  unfold State.build
  rw [State.readN_writeBank _ _ _ _ _ hm]
  by_cases h : m < 16
  · rw [if_pos (by omega), if_pos h, Nat.sub_zero]
    by_cases h8 : m < 8
    · rw [if_pos h8]
    · rw [if_neg h8, show 24 + (m - 8) = 16 + m by omega]
  · rw [if_neg (by omega), if_neg h]

/-- Everything `BIGSHR` does (`45_compressor.md` R183). -/
theorem State.readN_bigshr (s : State) (m : Nat) (hm : m < 32) :
    s.bigshr.readN m = if m < 16 then s.readN (4 * ((m / 4 + m % 4) % 4) + m % 4) else s.readN m := by
  unfold State.bigshr
  rw [State.readN_writeBank _ _ _ _ _ hm]
  by_cases h : m < 16
  · rw [if_pos (by omega), if_pos h, Nat.sub_zero]
  · rw [if_neg (by omega), if_neg h]

/-- Everything `BIGMIX` does (`45_compressor.md` R185, R186). -/
theorem State.readN_bigmix (s : State) (m : Nat) (hm : m < 32) :
    s.bigmix.readN m =
      if m < 16 then
        wordOfBytes fun b =>
          match s.params.bigmixAxis with
          | .column => columnAt (mds (s.gridColumn (m / 4) b)) (m % 4)
          | .row => columnAt (mds (s.gridRow (m % 4) b)) (m / 4)
      else s.readN m := by
  unfold State.bigmix
  rw [State.readN_writeBank _ _ _ _ _ hm]
  by_cases h : m < 16
  · rw [if_pos (by omega), if_pos h, Nat.sub_zero] <;> rfl
  · rw [if_neg (by omega), if_neg h]

/-- Everything `FINAL` does (`45_compressor.md` R190): for `i = m - 16` the grid words are `i` and `i + 8`. -/
theorem State.readN_final (s : State) (m : Nat) (hm : m < 32) :
    s.final.readN m =
      if 16 ≤ m ∧ m < 24 then s.readN m ^^^ s.readN (m + 8) ^^^ s.readN (m - 16) ^^^ s.readN (m - 8)
      else s.readN m := by
  unfold State.final
  rw [State.readN_writeBank _ _ _ _ _ hm]
  by_cases h : 16 ≤ m ∧ m < 24
  · rw [if_pos (by omega), if_pos h]
    dsimp only
    rw [show 16 + (m - 16) = m by omega, show 24 + (m - 16) = m + 8 by omega]
    by_cases h4 : m - 16 < 4
    · rw [if_pos h4, if_pos h4, show 4 * 0 + (m - 16) % 4 = m - 16 by omega,
        show 4 * 2 + (m - 16) % 4 = m - 8 by omega]
    · rw [if_neg h4, if_neg h4, show 4 * 1 + (m - 16) % 4 = m - 16 by omega,
        show 4 * 3 + (m - 16) % 4 = m - 8 by omega]
  · rw [if_neg (by omega), if_neg h]

/-- Everything one iteration of `BIGSUB` does (`45_compressor.md` R181). -/
theorem State.bigsubCell_eq (s : State) (n : Nat) :
    s.bigsubCell n = (s.withK (keyAdvanced s.k)).writeX (regOf n)
      (perWordRound s.params.perwordMix (perWordRound s.params.perwordMix (s.readN n) s.k) s.params.salt) := rfl

/-- A fold of `BIGSUB` iterations over distinct cells: cell `n` is keyed with the key after as many advances as cells
stand before it in the list; every other register, and every field but `K`, is as before. -/
theorem State.foldl_bigsubCell (l : List Nat) (s : State) (hl : ∀ n ∈ l, n < 32) (hd : l.Nodup) :
    (∀ m, m < 32 → (l.foldl State.bigsubCell s).readN m =
      if m ∈ l then
        perWordRound s.params.perwordMix
          (perWordRound s.params.perwordMix (s.readN m) (keyAdvanced^[l.idxOf m] s.k)) s.params.salt
      else s.readN m) ∧
    (l.foldl State.bigsubCell s).k = keyAdvanced^[l.length] s.k ∧
    (l.foldl State.bigsubCell s).status = s.status ∧ (l.foldl State.bigsubCell s).dout = s.dout ∧
    (l.foldl State.bigsubCell s).msg = s.msg ∧ (l.foldl State.bigsubCell s).params = s.params ∧
    (l.foldl State.bigsubCell s).pending = s.pending ∧ (l.foldl State.bigsubCell s).free = s.free := by
  induction l generalizing s with
  | nil => simp
  | cons a l ih =>
    obtain ⟨hal, hd'⟩ := List.nodup_cons.1 hd
    have ha : a < 32 := hl a (by simp)
    obtain ⟨h1, h2, h3, h4, h5, h6, h7, h8⟩ := ih (s.bigsubCell a) (fun n hn => hl n (by simp [hn])) hd'
    rw [List.foldl_cons]
    refine ⟨fun m hm => ?_, ?_, h3, h4, h5, h6, h7, h8⟩
    · rw [h1 m hm, State.bigsubCell_eq, State.readN_writeX _ _ _ ha hm]
      by_cases hma : m = a
      · subst hma
        rw [if_neg hal, if_pos rfl, if_pos (by simp), List.idxOf_cons_self]
        rfl
      · rw [if_neg hma]
        by_cases hml : m ∈ l
        · rw [if_pos hml, if_pos (by simp [hml]), List.idxOf_cons_ne _ (Ne.symm hma)]
          rfl
        · rw [if_neg hml, if_neg (by simp [hma, hml])]
          rfl
    · rw [h2, List.length_cons, Function.iterate_succ_apply]
      rfl

/-- The order of the cells visits each of the 16 once (`45_compressor.md` R180). -/
theorem mem_subwordCells (o : Config.SubwordOrder) (n : Nat) : n ∈ subwordCells o ↔ n < 16 := by
  constructor
  · revert n
    cases o <;> decide
  · intro h
    interval_cases n <;> cases o <;> decide

theorem nodup_subwordCells (o : Config.SubwordOrder) : (subwordCells o).Nodup := by
  cases o <;> decide

theorem length_subwordCells (o : Config.SubwordOrder) : (subwordCells o).length = 16 := by
  cases o <;> rfl

/-- Everything `BIGSUB`'s pass does (`45_compressor.md` R181). -/
theorem State.bigsub_spec (s : State) :
    (∀ m, m < 32 → s.bigsub.readN m =
      if m < 16 then
        perWordRound s.params.perwordMix (perWordRound s.params.perwordMix (s.readN m)
          (keyAdvanced^[(subwordCells s.params.subwordOrder).idxOf m] s.k)) s.params.salt
      else s.readN m) ∧
    s.bigsub.k = keyAdvanced^[16] s.k ∧ s.bigsub.status = s.status ∧ s.bigsub.dout = s.dout ∧
    s.bigsub.msg = s.msg ∧ s.bigsub.params = s.params ∧ s.bigsub.pending = s.pending ∧ s.bigsub.free = s.free := by
  have h := State.foldl_bigsubCell (subwordCells s.params.subwordOrder) s
    (fun n hn => by have := (mem_subwordCells _ n).1 hn; omega) (nodup_subwordCells _)
  rw [length_subwordCells] at h
  refine ⟨fun m hm => ?_, h.2⟩
  have h1 := h.1 m hm
  simp only [mem_subwordCells] at h1
  exact h1

/-- The fields the whole of a round leaves alone. -/
theorem State.round_fields (s : State) :
    s.round.k = keyAdvanced^[16] s.k ∧ s.round.status = s.status ∧ s.round.dout = s.dout ∧ s.round.msg = s.msg ∧
    s.round.params = s.params ∧ s.round.pending = s.pending ∧ s.round.free = s.free :=
  s.bigsub_spec.2

/-- A round writes only the grid (`45_compressor.md` R188). -/
theorem State.readN_round (s : State) (m : Nat) (hm : m < 32) (h : 16 ≤ m) : s.round.readN m = s.readN m := by
  unfold State.round State.bigmix State.bigshr
  rw [State.readN_writeBank_of_not_mem _ _ _ _ _ hm (by omega),
    State.readN_writeBank_of_not_mem _ _ _ _ _ hm (by omega), s.bigsub_spec.1 m hm, if_neg (by omega)]

/-- The fields `n` rounds leave alone, and the keys they consume (`43_key_schedule.md` R146). -/
theorem State.rounds_fields (s : State) (n : Nat) :
    (s.rounds n).k = keyAdvanced^[16 * n] s.k ∧ (s.rounds n).status = s.status ∧ (s.rounds n).dout = s.dout ∧
    (s.rounds n).msg = s.msg ∧ (s.rounds n).params = s.params ∧ (s.rounds n).pending = s.pending ∧
    (s.rounds n).free = s.free ∧ ∀ m, m < 32 → 16 ≤ m → (s.rounds n).readN m = s.readN m := by
  induction n with
  | zero => exact ⟨rfl, rfl, rfl, rfl, rfl, rfl, rfl, fun _ _ _ => rfl⟩
  | succ n ih =>
    obtain ⟨h1, h2, h3, h4, h5, h6, h7, h8⟩ := ih
    obtain ⟨g1, g2, g3, g4, g5, g6, g7⟩ := (s.rounds n).round_fields
    refine ⟨?_, g2.trans h2, g3.trans h3, g4.trans h4, g5.trans h5, g6.trans h6, g7.trans h7, fun m hm h => ?_⟩
    · show (s.rounds n).round.k = _
      rw [g1, h1, show 16 * (n + 1) = 16 + 16 * n by ring, Function.iterate_add_apply]
    · exact ((s.rounds n).readN_round m hm h).trans (h8 m hm h)

/-- The fields `COMPRESS` leaves alone, and the keys it consumes (`45_compressor.md` R192). -/
theorem State.compress_fields (s : State) :
    s.compress.k = keyAdvanced^[160] s.k ∧ s.compress.status = s.status ∧ s.compress.dout = s.dout ∧
    s.compress.msg = s.msg ∧ s.compress.params = s.params ∧ s.compress.pending = s.pending ∧
    s.compress.free = s.free := by
  obtain ⟨h1, h2, h3, h4, h5, h6, h7, _⟩ := s.build.rounds_fields 10
  unfold State.compress
  simp only [State.final_k, State.final_status, State.final_dout, State.final_msg, State.final_params,
    State.final_pending, State.final_free, h1, h2, h3, h4, h5, h6, h7, State.build_k, State.build_status,
    State.build_dout, State.build_msg, State.build_params, State.build_pending, State.build_free, and_self]

/-! The grid operations do not read what the host presents. -/

theorem State.readN_withProgram (s : State) (l : List HostInput) (n : Nat) : (s.withProgram l).readN n = s.readN n :=
  rfl

theorem State.writeBank_withProgram (s : State) (l : List HostInput) (b n : Nat) (f : Nat → Word) :
    (s.withProgram l).writeBank b n f = (s.writeBank b n f).withProgram l := rfl

theorem State.build_withProgram (s : State) (l : List HostInput) :
    (s.withProgram l).build = s.build.withProgram l := by
  unfold State.build
  exact State.writeBank_withProgram s l _ _ _

theorem State.bigsubCell_withProgram (s : State) (l : List HostInput) (n : Nat) :
    (s.withProgram l).bigsubCell n = (s.bigsubCell n).withProgram l := rfl

theorem State.bigsub_withProgram (s : State) (l : List HostInput) :
    (s.withProgram l).bigsub = s.bigsub.withProgram l := by
  unfold State.bigsub
  rw [State.withProgram_params]
  generalize subwordCells s.params.subwordOrder = cells
  induction cells generalizing s with
  | nil => rfl
  | cons n cells ih => rw [List.foldl_cons, List.foldl_cons, State.bigsubCell_withProgram, ih]

theorem State.bigshr_withProgram (s : State) (l : List HostInput) :
    (s.withProgram l).bigshr = s.bigshr.withProgram l := by
  unfold State.bigshr
  exact State.writeBank_withProgram s l _ _ _

theorem State.bigmix_withProgram (s : State) (l : List HostInput) :
    (s.withProgram l).bigmix = s.bigmix.withProgram l := by
  unfold State.bigmix
  exact State.writeBank_withProgram s l _ _ _

theorem State.round_withProgram (s : State) (l : List HostInput) :
    (s.withProgram l).round = s.round.withProgram l := by
  unfold State.round
  rw [State.bigsub_withProgram, State.bigshr_withProgram, State.bigmix_withProgram]

theorem State.final_withProgram (s : State) (l : List HostInput) :
    (s.withProgram l).final = s.final.withProgram l := by
  unfold State.final
  exact State.writeBank_withProgram s l _ _ _

theorem State.rounds_withProgram (s : State) (l : List HostInput) (n : Nat) :
    (s.withProgram l).rounds n = (s.rounds n).withProgram l := by
  induction n with
  | zero => rfl
  | succ n ih =>
    show ((s.withProgram l).rounds n).round = ((s.rounds n).round).withProgram l
    rw [ih, State.round_withProgram]

theorem State.compress_withProgram (s : State) (l : List HostInput) :
    (s.withProgram l).compress = s.compress.withProgram l := by
  unfold State.compress
  rw [State.build_withProgram, State.rounds_withProgram, State.final_withProgram]

end Sys2Proof.Machine
end

