-- ==== Sys2Proof/Laws/PerInstr.lean ====
section
/-! SUPPORT. The family of per-instruction lemmas: the word of every command is spelled by the command's own row of the
opcode map (`spec/30_encoding.md` R78, R81, R86). -/

namespace Sys2Proof.Laws

/-- The word of `i` matches the row of the opcode map that has `i`'s mnemonic. -/
def EncodedRow.Statement (i : Instr) : Prop :=
  ∃ row ∈ opcodeTable, row.mnemonic = i.mnemonic ∧ row.spells (encode i) = true

/-- A mask split where the word is split acts on each part. -/
theorem and_append {m n : Nat} (x p : BitVec m) (y q : BitVec n) : (x ++ y) &&& (p ++ q) = (x &&& p) ++ (y &&& q) := by
  apply BitVec.eq_of_getLsbD_eq
  intro i hi
  simp only [BitVec.getLsbD_and, BitVec.getLsbD_append]
  split <;> rfl

theorem and_ones {n : Nat} (x : BitVec n) : x &&& BitVec.allOnes n = x := by
  simp

theorem and_none {n : Nat} (x : BitVec n) : x &&& 0#n = 0#n := by
  simp

/-- The parts put together. -/
theorem joined {m n : Nat} {x z : BitVec m} {y w : BitVec n} (p : BitVec m) (q : BitVec n) (h : x &&& p = z)
    (h' : y &&& q = w) : (x ++ y) &&& (p ++ q) = z ++ w := by
  rw [and_append, h, h']

/-- A mask that keeps the opcode. -/
theorem masked (op : BitVec 8) (x p z : BitVec 24) (h : x &&& p = z) :
    (op ++ x : Command) &&& (BitVec.allOnes 8 ++ p : Command) = op ++ z := by
  have := and_append op (BitVec.allOnes 8) x p
  rw [and_ones, h] at this
  exact this

theorem spells_encodeZ {m : String} (op : BitVec 8) : OpcodeRow.spells ⟨m, op ++ 0#24, 0xFFFFFFFF#32⟩ (encodeZ op) = true := by
  unfold OpcodeRow.spells encodeZ
  exact beq_iff_eq.2 (masked op _ _ _ (and_ones _))

theorem spells_encodeR1 {m : String} (op : BitVec 8) (r : Reg) :
    OpcodeRow.spells ⟨m, op ++ (0#5 ++ 0#19), BitVec.allOnes 8 ++ (0#5 ++ BitVec.allOnes 19)⟩ (encodeR1 op r) = true := by
  exact beq_iff_eq.2 (masked op _ _ _ (joined _ _ (and_none _) (and_ones _)))

theorem spells_encodeR2 {m : String} (op : BitVec 8) (rd : Reg) (rs : Reg) :
    OpcodeRow.spells ⟨m, op ++ (0#5 ++ (0#5 ++ 0#14)), BitVec.allOnes 8 ++ (0#5 ++ (0#5 ++ BitVec.allOnes 14))⟩ (encodeR2 op rd rs) = true := by
  exact beq_iff_eq.2 (masked op _ _ _ (joined _ _ (and_none _) (joined _ _ (and_none _) (and_ones _))))

theorem spells_encodeI1 {m : String} (op : BitVec 8) (a : Byte) :
    OpcodeRow.spells ⟨m, op ++ (0#8 ++ 0#16), BitVec.allOnes 8 ++ (0#8 ++ BitVec.allOnes 16)⟩ (encodeI1 op a) = true := by
  exact beq_iff_eq.2 (masked op _ _ _ (joined _ _ (and_none _) (and_ones _)))

theorem spells_encodeI2 {m : String} (op : BitVec 8) (a : Byte) (b : Byte) :
    OpcodeRow.spells ⟨m, op ++ (0#8 ++ (0#8 ++ 0#8)), BitVec.allOnes 8 ++ (0#8 ++ (0#8 ++ BitVec.allOnes 8))⟩ (encodeI2 op a b) = true := by
  exact beq_iff_eq.2 (masked op _ _ _ (joined _ _ (and_none _) (joined _ _ (and_none _) (and_ones _))))

theorem spells_encodeM {m : String} (op : BitVec 8) (rd : Reg) (off : Offset) :
    OpcodeRow.spells ⟨m, op ++ (0#5 ++ (0#3 ++ 0#16)), BitVec.allOnes 8 ++ (0#5 ++ (BitVec.allOnes 3 ++ 0#16))⟩ (encodeM op rd off) = true := by
  exact beq_iff_eq.2 (masked op _ _ _ (joined _ _ (and_none _) (joined _ _ (and_ones _) (and_none _))))

theorem spells_encodeMO {m : String} (op : BitVec 8) (off : Offset) :
    OpcodeRow.spells ⟨m, op ++ (0#8 ++ 0#16), BitVec.allOnes 8 ++ (BitVec.allOnes 8 ++ 0#16)⟩ (encodeMO op off) = true := by
  exact beq_iff_eq.2 (masked op _ _ _ (joined _ _ (and_ones _) (and_none _)))

theorem EncodedRow.nop : EncodedRow.Statement .nop :=
  ⟨⟨"NOP", 0x00000000#32, 0xFFFFFFFF#32⟩, by decide, rfl, spells_encodeZ _⟩

theorem EncodedRow.rdst : EncodedRow.Statement .rdst :=
  ⟨⟨"RDST", 0x01000000#32, 0xFFFFFFFF#32⟩, by decide, rfl, spells_encodeZ _⟩

theorem EncodedRow.ldw (r : Reg) : EncodedRow.Statement (.ldw r) :=
  ⟨⟨"LDW", 0x02000000#32, 0xFF07FFFF#32⟩, by decide, rfl, spells_encodeR1 _ _⟩

theorem EncodedRow.rdw (r : Reg) : EncodedRow.Statement (.rdw r) :=
  ⟨⟨"RDW", 0x03000000#32, 0xFF07FFFF#32⟩, by decide, rfl, spells_encodeR1 _ _⟩

theorem EncodedRow.stm (off : Offset) : EncodedRow.Statement (.stm off) :=
  ⟨⟨"STM", 0x04000000#32, 0xFFFF0000#32⟩, by decide, rfl, spells_encodeMO _ _⟩

theorem EncodedRow.gfmul (a : Byte) (b : Byte) : EncodedRow.Statement (.gfmul a b) :=
  ⟨⟨"GFMUL", 0x10000000#32, 0xFF0000FF#32⟩, by decide, rfl, spells_encodeI2 _ _ _⟩

theorem EncodedRow.sbox (a : Byte) : EncodedRow.Statement (.sbox a) :=
  ⟨⟨"SBOX", 0x20000000#32, 0xFF00FFFF#32⟩, by decide, rfl, spells_encodeI1 _ _⟩

theorem EncodedRow.isbox (a : Byte) : EncodedRow.Statement (.isbox a) :=
  ⟨⟨"ISBOX", 0x21000000#32, 0xFF00FFFF#32⟩, by decide, rfl, spells_encodeI1 _ _⟩

theorem EncodedRow.subw (r : Reg) : EncodedRow.Statement (.subw r) :=
  ⟨⟨"SUBW", 0x22000000#32, 0xFF07FFFF#32⟩, by decide, rfl, spells_encodeR1 _ _⟩

theorem EncodedRow.isubw (r : Reg) : EncodedRow.Statement (.isubw r) :=
  ⟨⟨"ISUBW", 0x23000000#32, 0xFF07FFFF#32⟩, by decide, rfl, spells_encodeR1 _ _⟩

theorem EncodedRow.shrows (r : Reg) : EncodedRow.Statement (.shrows r) :=
  ⟨⟨"SHROWS", 0x30000000#32, 0xFF07FFFF#32⟩, by decide, rfl, spells_encodeR1 _ _⟩

theorem EncodedRow.mixcol (r : Reg) : EncodedRow.Statement (.mixcol r) :=
  ⟨⟨"MIXCOL", 0x31000000#32, 0xFF07FFFF#32⟩, by decide, rfl, spells_encodeR1 _ _⟩

theorem EncodedRow.addkey (rd : Reg) (rs : Reg) : EncodedRow.Statement (.addkey rd rs) :=
  ⟨⟨"ADDKEY", 0x32000000#32, 0xFF003FFF#32⟩, by decide, rfl, spells_encodeR2 _ _ _⟩

theorem EncodedRow.aesrnd (rd : Reg) (rs : Reg) : EncodedRow.Statement (.aesrnd rd rs) :=
  ⟨⟨"AESRND", 0x33000000#32, 0xFF003FFF#32⟩, by decide, rfl, spells_encodeR2 _ _ _⟩

theorem EncodedRow.kinit (r : Reg) : EncodedRow.Statement (.kinit r) :=
  ⟨⟨"KINIT", 0x40000000#32, 0xFF07FFFF#32⟩, by decide, rfl, spells_encodeR1 _ _⟩

theorem EncodedRow.knext (r : Reg) : EncodedRow.Statement (.knext r) :=
  ⟨⟨"KNEXT", 0x41000000#32, 0xFF07FFFF#32⟩, by decide, rfl, spells_encodeR1 _ _⟩

theorem EncodedRow.toword (rd : Reg) (off : Offset) : EncodedRow.Statement (.toword rd off) :=
  ⟨⟨"TOWORD", 0x50000000#32, 0xFF070000#32⟩, by decide, rfl, spells_encodeM _ _ _⟩

theorem EncodedRow.toblk (off : Offset) : EncodedRow.Statement (.toblk off) :=
  ⟨⟨"TOBLK", 0x51000000#32, 0xFFFF0000#32⟩, by decide, rfl, spells_encodeMO _ _⟩

theorem EncodedRow.w2m (r : Reg) : EncodedRow.Statement (.w2m r) :=
  ⟨⟨"W2M", 0x52000000#32, 0xFF07FFFF#32⟩, by decide, rfl, spells_encodeR1 _ _⟩

theorem EncodedRow.m2w (r : Reg) : EncodedRow.Statement (.m2w r) :=
  ⟨⟨"M2W", 0x53000000#32, 0xFF07FFFF#32⟩, by decide, rfl, spells_encodeR1 _ _⟩

theorem EncodedRow.build : EncodedRow.Statement .build :=
  ⟨⟨"BUILD", 0x60000000#32, 0xFFFFFFFF#32⟩, by decide, rfl, spells_encodeZ _⟩

theorem EncodedRow.bigsub : EncodedRow.Statement .bigsub :=
  ⟨⟨"BIGSUB", 0x61000000#32, 0xFFFFFFFF#32⟩, by decide, rfl, spells_encodeZ _⟩

theorem EncodedRow.bigshr : EncodedRow.Statement .bigshr :=
  ⟨⟨"BIGSHR", 0x62000000#32, 0xFFFFFFFF#32⟩, by decide, rfl, spells_encodeZ _⟩

theorem EncodedRow.bigmix : EncodedRow.Statement .bigmix :=
  ⟨⟨"BIGMIX", 0x63000000#32, 0xFFFFFFFF#32⟩, by decide, rfl, spells_encodeZ _⟩

theorem EncodedRow.round : EncodedRow.Statement .round :=
  ⟨⟨"ROUND", 0x64000000#32, 0xFFFFFFFF#32⟩, by decide, rfl, spells_encodeZ _⟩

theorem EncodedRow.final : EncodedRow.Statement .final :=
  ⟨⟨"FINAL", 0x65000000#32, 0xFFFFFFFF#32⟩, by decide, rfl, spells_encodeZ _⟩

theorem EncodedRow.compress : EncodedRow.Statement .compress :=
  ⟨⟨"COMPRESS", 0x66000000#32, 0xFFFFFFFF#32⟩, by decide, rfl, spells_encodeZ _⟩

end Sys2Proof.Laws
end

