-- ==== Sys2Proof/Laws/Step.lean ====
section
/-! SUPPORT. What a command and a step can do, said once: inversion lemmas that later proofs cite instead of unfolding
`exec` or `step`. -/

namespace Sys2Proof.Machine

/-- What `STM` can do (`46_data_and_system.md` R203). -/
theorem execStm_cases (off : Offset) (s : State) :
    (s.inMsg (byteOffset off) 16 = true ∧
      execStm off s = .next (s.withMsg (s.msg.writeWord (byteOffset off) s.din))) ∨
    (s.inMsg (byteOffset off) 16 = false ∧ execStm off s = .next (s.raise .addressRange)) := by
  unfold execStm
  cases h : s.inMsg (byteOffset off) 16
  · exact .inr ⟨rfl, rfl⟩
  · exact .inl ⟨rfl, rfl⟩

/-- What `TOWORD` can do (`44_block_codec.md` R159). -/
theorem execToword_cases (rd : Reg) (off : Offset) (s : State) :
    (s.inMsg (byteOffset off) 16 = true ∧ s.msg.written (byteOffset off) 16 = true ∧
      execToword rd off s = .next (s.writeX rd (s.msg.wordAt (byteOffset off)))) ∨
    (s.inMsg (byteOffset off) 16 = true ∧ s.msg.written (byteOffset off) 16 = false ∧
      execToword rd off s = .fault .unwrittenMsg) ∨
    (s.inMsg (byteOffset off) 16 = false ∧ execToword rd off s = .next (s.raise .addressRange)) := by
  unfold execToword
  cases h : s.inMsg (byteOffset off) 16
  · exact .inr (.inr ⟨rfl, rfl⟩)
  · cases h2 : s.msg.written (byteOffset off) 16
    · exact .inr (.inl ⟨rfl, rfl, rfl⟩)
    · exact .inl ⟨rfl, rfl, rfl⟩

/-- What `TOBLK` can do (`44_block_codec.md` R160). -/
theorem execToblk_cases (idx : Offset) (s : State) :
    (s.inMsg (blockOffset idx) 128 = true ∧ s.msg.written (blockOffset idx) 128 = true ∧
      execToblk idx s = .next (s.writeBank 24 8 fun j => s.msg.wordAt (blockOffset idx + 16 * j))) ∨
    (s.inMsg (blockOffset idx) 128 = true ∧ s.msg.written (blockOffset idx) 128 = false ∧
      execToblk idx s = .fault .unwrittenMsg) ∨
    (s.inMsg (blockOffset idx) 128 = false ∧ execToblk idx s = .next (s.raise .addressRange)) := by
  unfold execToblk
  cases h : s.inMsg (blockOffset idx) 128
  · exact .inr (.inr ⟨rfl, rfl⟩)
  · cases h2 : s.msg.written (blockOffset idx) 128
    · exact .inr (.inl ⟨rfl, rfl, rfl⟩)
    · exact .inl ⟨rfl, rfl, rfl⟩

/-- Every shape of state a command can lead to. -/
inductive Reaches (i : Instr) (s : State) : State → Prop
  | nothing (h : i = .nop) : Reaches i s s
  | dout (w : Word) (h : i = .rdst ∨ (∃ r, i = .rdw r) ∨ (∃ a b, i = .gfmul a b) ∨ (∃ a, i = .sbox a) ∨ ∃ a, i = .isbox a) :
      Reaches i s (s.writeDout w)
  | register (rd : Reg) (w : Word) : Reaches i s (s.writeX rd w)
  | kinit (rs : Reg) (h : i = .kinit rs) : Reaches i s (s.withK (s.readX rs))
  | knext (rd : Reg) (h : i = .knext rd) : Reaches i s ((s.withK (keyAdvanced s.k)).writeX rd s.k)
  | store (off : Offset) (h : i = .stm off) (hr : s.inMsg (byteOffset off) 16 = true) :
      Reaches i s (s.withMsg (s.msg.writeWord (byteOffset off) s.din))
  | rangeFault (h : (∃ off, i = .stm off) ∨ (∃ rd off, i = .toword rd off) ∨ ∃ idx, i = .toblk idx) :
      Reaches i s (s.raise .addressRange)
  | bank (b n : Nat) (f : Nat → Word) : Reaches i s (s.writeBank b n f)
  | bigsub (h : i = .bigsub) : Reaches i s s.bigsub
  | round (h : i = .round) : Reaches i s s.round
  | compress (h : i = .compress) : Reaches i s s.compress

/-- A command that answers a next state answers one of these. -/
theorem exec_next_reaches {i : Instr} {s t : State} (h : exec i s = .next t) : Reaches i s t := by
  cases i with
  | nop => cases h; exact .nothing rfl
  | rdst => cases h; exact .dout _ (.inl rfl)
  | ldw rd => cases h; exact .register _ _
  | rdw rs => cases h; exact .dout _ (.inr (.inl ⟨_, rfl⟩))
  | stm off =>
    rcases execStm_cases off s with ⟨hr, e⟩ | ⟨_, e⟩
    · cases e.symm.trans h; exact .store off rfl hr
    · cases e.symm.trans h; exact .rangeFault (.inl ⟨_, rfl⟩)
  | gfmul a b => cases h; exact .dout _ (.inr (.inr (.inl ⟨_, _, rfl⟩)))
  | sbox a => cases h; exact .dout _ (.inr (.inr (.inr (.inl ⟨_, rfl⟩))))
  | isbox a => cases h; exact .dout _ (.inr (.inr (.inr (.inr ⟨_, rfl⟩))))
  | subw rd => cases h; exact .register _ _
  | isubw rd => cases h; exact .register _ _
  | shrows rd => cases h; exact .register _ _
  | mixcol rd => cases h; exact .register _ _
  | addkey rd rs => cases h; exact .register _ _
  | aesrnd rd rs => cases h; exact .register _ _
  | kinit rs => cases h; exact .kinit rs rfl
  | knext rd => cases h; exact .knext rd rfl
  | toword rd off =>
    rcases execToword_cases rd off s with ⟨_, _, e⟩ | ⟨_, _, e⟩ | ⟨_, e⟩
    · cases e.symm.trans h; exact .register _ _
    · cases e.symm.trans h
    · cases e.symm.trans h; exact .rangeFault (.inr (.inl ⟨_, _, rfl⟩))
  | toblk idx =>
    rcases execToblk_cases idx s with ⟨_, _, e⟩ | ⟨_, _, e⟩ | ⟨_, e⟩
    · cases e.symm.trans h; exact .bank _ _ _
    · cases e.symm.trans h
    · cases e.symm.trans h; exact .rangeFault (.inr (.inr ⟨_, rfl⟩))
  | w2m rd => cases h; exact .register _ _
  | m2w rd => cases h; exact .register _ _
  | build => cases h; exact .bank _ _ _
  | bigsub => cases h; exact .bigsub rfl
  | bigshr => cases h; exact .bank _ _ _
  | bigmix => cases h; exact .bank _ _ _
  | round => cases h; exact .round rfl
  | final => cases h; exact .bank _ _ _
  | compress => cases h; exact .compress rfl

/-- No command touches the host's list. -/
theorem Reaches.pending {i : Instr} {s t : State} (h : Reaches i s t) : t.pending = s.pending := by
  cases h with
  | bigsub _ => exact s.bigsub_spec.2.2.2.2.2.2.1
  | round _ => exact s.round_fields.2.2.2.2.2.1
  | compress _ => exact s.compress_fields.2.2.2.2.2.1
  | _ => rfl

/-- No command changes the instance's parameters (`10_state.md` R25). -/
theorem Reaches.params {i : Instr} {s t : State} (h : Reaches i s t) : t.params = s.params := by
  cases h with
  | bigsub _ => exact s.bigsub_spec.2.2.2.2.2.1
  | round _ => exact s.round_fields.2.2.2.2.1
  | compress _ => exact s.compress_fields.2.2.2.2.1
  | _ => rfl

/-- A command changes `STATUS` by fault entry with `AddressRange` only (`60_exceptions.md` R212, R214). -/
theorem Reaches.status {i : Instr} {s t : State} (h : Reaches i s t) :
    t.status = s.status ∨
      t = s.raise .addressRange ∧ ((∃ off, i = .stm off) ∨ (∃ rd off, i = .toword rd off) ∨ ∃ idx, i = .toblk idx) := by
  cases h with
  | bigsub _ => exact .inl s.bigsub_spec.2.2.1
  | round _ => exact .inl s.round_fields.2.1
  | compress _ => exact .inl s.compress_fields.2.1
  | rangeFault h => exact .inr ⟨rfl, h⟩
  | _ => exact .inl rfl

/-- A command changes `MSG` by an accepted `STM` only (`20_memory.md` R57). -/
theorem Reaches.msg {i : Instr} {s t : State} (h : Reaches i s t) :
    t.msg = s.msg ∨
      ∃ off, i = .stm off ∧ s.inMsg (byteOffset off) 16 = true ∧ t.msg = s.msg.writeWord (byteOffset off) s.din := by
  cases h with
  | bigsub _ => exact .inl s.bigsub_spec.2.2.2.2.1
  | round _ => exact .inl s.round_fields.2.2.2.1
  | compress _ => exact .inl s.compress_fields.2.2.2.1
  | store off h hr => exact .inr ⟨off, h, hr, State.withMsg_msg _ _⟩
  | _ => exact .inl rfl

/-- No command is refused, and the only stop is a read of an unwritten `MSG` byte. -/
theorem exec_not_refused (i : Instr) (s : State) (r : Refusal) : exec i s ≠ .refused r := by
  intro h
  cases i with
  | stm off => rcases execStm_cases off s with ⟨_, e⟩ | ⟨_, e⟩ <;> cases e.symm.trans h
  | toword rd off => rcases execToword_cases rd off s with ⟨_, _, e⟩ | ⟨_, _, e⟩ | ⟨_, e⟩ <;> cases e.symm.trans h
  | toblk idx => rcases execToblk_cases idx s with ⟨_, _, e⟩ | ⟨_, _, e⟩ | ⟨_, e⟩ <;> cases e.symm.trans h
  | _ => cases h

/-- What a step can do (`10_state.md` R20, R26; `60_exceptions.md` R216). -/
theorem step_next_cases {s t : State} (h : step s = .next t) :
    (s.pending = [] ∧ t = s) ∨
    (∃ rest, s.pending = .rst :: rest ∧ t = s.takeReset.advance) ∨
    (∃ c d rest, s.pending = .command c d :: rest ∧
      ((s.accept c = .discarded ∧ t = s.advance) ∨
        (s.accept c = .illegal ∧ t = (s.raise .illegalCommand).advance) ∨
        ∃ i u, s.accept c = .execute i ∧ exec i s = .next u ∧ t = u.advance)) := by
  unfold step at h
  split at h
  · next hp => cases h; exact .inl ⟨hp, rfl⟩
  · next rest hp => cases h; exact .inr (.inl ⟨rest, hp, rfl⟩)
  · next c d rest hp =>
    refine .inr (.inr ⟨c, d, rest, hp, ?_⟩)
    split at h
    · next ha => cases h; exact .inl ⟨ha, rfl⟩
    · next ha => cases h; exact .inr (.inl ⟨ha, rfl⟩)
    · next i ha =>
      cases he : exec i s with
      | next u => rw [he] at h; cases h; exact .inr (.inr ⟨i, u, ha, he, rfl⟩)
      | fault r => rw [he] at h; cases h
      | refused r => rw [he] at h; cases h

/-- A step on a presented command, by what becomes of its word. -/
theorem step_command (s : State) (c : Command) (d : Word) (rest : List HostInput)
    (hp : s.pending = .command c d :: rest) :
    step s =
      match s.accept c with
      | .discarded => .next s.advance
      | .illegal => .next (s.raise .illegalCommand).advance
      | .execute i => afterExec (exec i s) := by
  unfold step
  rw [hp] <;> rfl

end Sys2Proof.Machine
end

