-- ==== Sys2Proof/Tests/Slice0.lean ====
section
/-! SUPPORT. Tests: words and values from `spec/95_test_vectors.md`, ill-formed words, and, for each statement with
hypotheses, a concrete state and operands that meet them. The expected results are the spec's, never the model's. -/

namespace Sys2Proof.Tests

-- One theorem after the other: the package as one text otherwise starts a thread for each kernel evaluation.
set_option Elab.async false

open Sys2Proof.Machine

/-- The Word with these flat bytes, flat byte 0 first (R11). -/
def bytes (l : List Byte) : Word := wordOfBytes fun i => l.getD i 0

/-- The Word `n, n+1, .., n+15`. -/
def ramp (n : Nat) : Word := wordOfBytes fun i => BitVec.ofNat 8 (n + i)

/-- An instance with `SALT` zero, `MSG_BYTES` = 128 and the switches at their defaults (R8). -/
def params : Config.Params := ⟨0, 0, true, .per46, .column, .columnMajor⟩

/-- The state right after reset on it, but with every register and `K` written, to zero. -/
def start : State := (State.resetWith params).withK 0 |>.writeBank 0 32 fun _ => 0

/-- `start` with one command presented. -/
def presenting (c : Command) (d : Word) : State := start.withProgram [.command c d]

/-- `start` halted by an `AddressRange` fault, with one command presented. -/
def haltedWith (c : Command) : State := (start.raise .addressRange).withProgram [.command c 0]

/-- `MSG[a] = a` for all 128 bytes. -/
def filled : State := start.withMsg ((List.range 128).map fun a => (a, BitVec.ofNat 8 a))

/-- Vector A of section 6.1: `x[16+i][k] = 16 i + k`, `K` as there. -/
def vectorA : State :=
  (start.withK (bytes [0xFE, 0, 0, 0, 0, 0, 0, 0, 0, 0, 0, 0, 0, 0, 0, 8])).writeBank 16 16 fun i => ramp (16 * i)

/-- What a command answers, if it answers a next state. -/
def after (i : Instr) (s : State) : Option State :=
  match exec i s with
  | .next t => some t
  | _ => none

/-- What a step answers, if it answers a next state. -/
def stepped (s : State) : Option State :=
  match step s with
  | .next t => some t
  | _ => none

/-! ## Decoding (section 9): each word is the spec's, for the command and the fields beside it -/

theorem test_decode_nop : decode 0x00000000#32 = .ok .nop ∧ encode .nop = 0x00000000#32 := by decide

theorem test_decode_rdst : decode 0x01000000#32 = .ok .rdst ∧ encode .rdst = 0x01000000#32 := by decide

theorem test_decode_ldw : decode 0x02A80000#32 = .ok (.ldw 21) ∧ encode (.ldw 21) = 0x02A80000#32 := by decide

theorem test_decode_rdw : decode 0x03980000#32 = .ok (.rdw 19) ∧ encode (.rdw 19) = 0x03980000#32 := by decide

theorem test_decode_stm : decode 0x04001230#32 = .ok (.stm 0x1230) ∧ encode (.stm 0x1230) = 0x04001230#32 := by decide

theorem test_decode_gfmul : decode 0x10CA5300#32 = .ok (.gfmul 0xCA 0x53) ∧
    encode (.gfmul 0xCA 0x53) = 0x10CA5300#32 := by decide

theorem test_decode_sbox : decode 0x209A0000#32 = .ok (.sbox 0x9A) ∧ encode (.sbox 0x9A) = 0x209A0000#32 := by decide

theorem test_decode_isbox : decode 0x21B80000#32 = .ok (.isbox 0xB8) ∧ encode (.isbox 0xB8) = 0x21B80000#32 := by decide

theorem test_decode_subw : decode 0x22280000#32 = .ok (.subw 5) ∧ encode (.subw 5) = 0x22280000#32 := by decide

theorem test_decode_isubw : decode 0x23500000#32 = .ok (.isubw 10) ∧ encode (.isubw 10) = 0x23500000#32 := by decide

theorem test_decode_shrows : decode 0x30780000#32 = .ok (.shrows 15) ∧ encode (.shrows 15) = 0x30780000#32 := by decide

theorem test_decode_mixcol : decode 0x31800000#32 = .ok (.mixcol 16) ∧ encode (.mixcol 16) = 0x31800000#32 := by decide

theorem test_decode_addkey : decode 0x321F0000#32 = .ok (.addkey 3 28) ∧
    encode (.addkey 3 28) = 0x321F0000#32 := by decide

theorem test_decode_aesrnd : decode 0x338A4000#32 = .ok (.aesrnd 17 9) ∧
    encode (.aesrnd 17 9) = 0x338A4000#32 := by decide

theorem test_decode_kinit : decode 0x40F80000#32 = .ok (.kinit 31) ∧ encode (.kinit 31) = 0x40F80000#32 := by decide

theorem test_decode_knext : decode 0x41080000#32 = .ok (.knext 1) ∧ encode (.knext 1) = 0x41080000#32 := by decide

theorem test_decode_toword : decode 0x50C000F0#32 = .ok (.toword 24 0xF0) ∧
    encode (.toword 24 0xF0) = 0x50C000F0#32 := by decide

theorem test_decode_toblk : decode 0x510001FF#32 = .ok (.toblk 0x1FF) ∧
    encode (.toblk 0x1FF) = 0x510001FF#32 := by decide

theorem test_decode_w2m : decode 0x52400000#32 = .ok (.w2m 8) ∧ encode (.w2m 8) = 0x52400000#32 := by decide

theorem test_decode_m2w : decode 0x53400000#32 = .ok (.m2w 8) ∧ encode (.m2w 8) = 0x53400000#32 := by decide

theorem test_decode_build : decode 0x60000000#32 = .ok .build ∧ encode .build = 0x60000000#32 := by decide

theorem test_decode_bigsub : decode 0x61000000#32 = .ok .bigsub ∧ encode .bigsub = 0x61000000#32 := by decide

theorem test_decode_bigshr : decode 0x62000000#32 = .ok .bigshr ∧ encode .bigshr = 0x62000000#32 := by decide

theorem test_decode_bigmix : decode 0x63000000#32 = .ok .bigmix ∧ encode .bigmix = 0x63000000#32 := by decide

theorem test_decode_round : decode 0x64000000#32 = .ok .round ∧ encode .round = 0x64000000#32 := by decide

theorem test_decode_final : decode 0x65000000#32 = .ok .final ∧ encode .final = 0x65000000#32 := by decide

theorem test_decode_compress : decode 0x66000000#32 = .ok .compress ∧ encode .compress = 0x66000000#32 := by decide

theorem test_decodeTableWord : decodeTableWord 32 0x50C000F0 = some (.toword 24 0xF0) := by decide

/-! ## Ill-formed words: one for each check of `wellFormedWord`, refused by it and, by name, by the decoder -/

/-- Opcode 0xFF is not assigned (P5). -/
theorem test_illformed_opcode :
    wellFormedWord 0xFFFFFFFF#32 = false ∧ decode 0xFFFFFFFF#32 = .error .unassignedOpcode := by decide
/-- Opcode 0x05 is not assigned. -/
theorem test_illformed_opcode_gap :
    wellFormedWord 0x05000000#32 = false ∧ decode 0x05000000#32 = .error .unassignedOpcode := by decide

/-- A must-be-zero bit of format Z, the lowest and the highest. -/
theorem test_illformed_Z : wellFormedWord 0x00000001#32 = false ∧ decode 0x00000001#32 = .error .mustBeZeroBitSet ∧
    wellFormedWord 0x60800000#32 = false ∧ decode 0x60800000#32 = .error .mustBeZeroBitSet := by decide

/-- A must-be-zero bit of format R1, the lowest and the highest. -/
theorem test_illformed_R1 : wellFormedWord 0x02000001#32 = false ∧ decode 0x02000001#32 = .error .mustBeZeroBitSet ∧
    wellFormedWord 0x22040000#32 = false ∧ decode 0x22040000#32 = .error .mustBeZeroBitSet := by decide

/-- A must-be-zero bit of format R2, the lowest and the highest. -/
theorem test_illformed_R2 : wellFormedWord 0x32000001#32 = false ∧ decode 0x32000001#32 = .error .mustBeZeroBitSet ∧
    wellFormedWord 0x33002000#32 = false ∧ decode 0x33002000#32 = .error .mustBeZeroBitSet := by decide

/-- A must-be-zero bit of format I1, the lowest and the highest. -/
theorem test_illformed_I1 : wellFormedWord 0x20000001#32 = false ∧ decode 0x20000001#32 = .error .mustBeZeroBitSet ∧
    wellFormedWord 0x21008000#32 = false ∧ decode 0x21008000#32 = .error .mustBeZeroBitSet := by decide

/-- A must-be-zero bit of format I2, the lowest and the highest. -/
theorem test_illformed_I2 : wellFormedWord 0x10020301#32 = false ∧ decode 0x10020301#32 = .error .mustBeZeroBitSet ∧
    wellFormedWord 0x10000080#32 = false ∧ decode 0x10000080#32 = .error .mustBeZeroBitSet := by decide

/-- A must-be-zero bit of format M, the lowest and the highest. -/
theorem test_illformed_M : wellFormedWord 0x50010000#32 = false ∧ decode 0x50010000#32 = .error .mustBeZeroBitSet ∧
    wellFormedWord 0x50040000#32 = false ∧ decode 0x50040000#32 = .error .mustBeZeroBitSet := by decide

/-- A must-be-zero bit of format MO, the lowest and the highest. -/
theorem test_illformed_MO : wellFormedWord 0x04010000#32 = false ∧ decode 0x04010000#32 = .error .mustBeZeroBitSet ∧
    wellFormedWord 0x51800000#32 = false ∧ decode 0x51800000#32 = .error .mustBeZeroBitSet := by decide

/-! ## Values: one command on a small state -/

theorem test_nop : (after .nop start).map (fun t => t) =
    some (start) := by decide +kernel

/-- P5, command 6. -/
theorem test_rdst : (after .rdst (start.raise .addressRange)).map (fun t => (byteAt t.dout 0, byteAt t.dout 1)) =
    some (0x05, 0x00) := by decide +kernel

theorem test_ldw : (after (.ldw 31) (presenting 0x02F80000#32 (ramp 0))).map (fun t => (t.readX 31, t.readX 30)) =
    some (ramp 0, 0) := by decide +kernel

theorem test_rdw : (after (.rdw 16) vectorA).map (fun t => t.dout) =
    some (bytes [0x00, 0x01, 0x02, 0x03, 0x04, 0x05, 0x06, 0x07, 0x08, 0x09, 0x0A, 0x0B, 0x0C, 0x0D, 0x0E, 0x0F]) :=
  by decide +kernel

theorem test_stm : (after (.stm 112) (presenting 0x04000070#32 (ramp 0))).map
      (fun t => (t.msg.read 111, t.msg.read 112, t.msg.read 127, t.status)) =
    some (none, some 0, some 15, 0) := by decide +kernel

theorem test_stm_range : (after (.stm 113) (presenting 0x04000071#32 (ramp 0))).map (fun t => (t.msg, t.status)) =
    some ([], 0x05) := by decide +kernel

theorem test_gfmul : (after (.gfmul 0x57 0x83) start).map (fun t => (byteAt t.dout 0, byteAt t.dout 1)) =
    some (0xC1, 0x00) := by decide +kernel

theorem test_gfmul_large : (after (.gfmul 0xFF 0xFF) start).map (fun t => byteAt t.dout 0) =
    some (0x13) := by decide +kernel

theorem test_sbox : (after (.sbox 0x53) start).map (fun t => byteAt t.dout 0) =
    some (0xED) := by decide +kernel

theorem test_sbox_top : (after (.sbox 0xFF) start).map (fun t => byteAt t.dout 0) =
    some (0x16) := by decide +kernel

theorem test_isbox : (after (.isbox 0x53) start).map (fun t => byteAt t.dout 0) =
    some (0x50) := by decide +kernel

theorem test_isbox_top : (after (.isbox 0xFF) start).map (fun t => byteAt t.dout 0) =
    some (0x7D) := by decide +kernel

theorem test_subw : (after (.subw 0) (start.writeX 0 (bytes [0x19, 0x3D, 0xE3, 0xBE, 0xA0, 0xF4, 0xE2, 0x2B, 0x9A, 0xC6, 0x8D, 0x2A, 0xE9, 0xF8, 0x48, 0x08]))).map
      (fun t => t.readX 0) =
    some (bytes [0xD4, 0x27, 0x11, 0xAE, 0xE0, 0xBF, 0x98, 0xF1, 0xB8, 0xB4, 0x5D, 0xE5, 0x1E, 0x41, 0x52, 0x30]) :=
  by decide +kernel

theorem test_isubw : (after (.isubw 0) (start.writeX 0 (ramp 0))).map (fun t => t.readX 0) =
    some (bytes [0x52, 0x09, 0x6A, 0xD5, 0x30, 0x36, 0xA5, 0x38, 0xBF, 0x40, 0xA3, 0x9E, 0x81, 0xF3, 0xD7, 0xFB]) :=
  by decide +kernel

theorem test_shrows : (after (.shrows 0) (start.writeX 0 (ramp 0))).map (fun t => t.readX 0) =
    some (bytes [0x00, 0x05, 0x0A, 0x0F, 0x04, 0x09, 0x0E, 0x03, 0x08, 0x0D, 0x02, 0x07, 0x0C, 0x01, 0x06, 0x0B]) :=
  by decide +kernel

theorem test_mixcol : (after (.mixcol 0) (start.writeX 0 (bytes [0xD4, 0xBF, 0x5D, 0x30, 0xE0, 0xB4, 0x52, 0xAE, 0xB8, 0x41, 0x11, 0xF1, 0x1E, 0x27, 0x98, 0xE5]))).map
      (fun t => t.readX 0) =
    some (bytes [0x04, 0x66, 0x81, 0xE5, 0xE0, 0xCB, 0x19, 0x9A, 0x48, 0xF8, 0xD3, 0x7A, 0x28, 0x06, 0x26, 0x4C]) :=
  by decide +kernel

theorem test_mixcol_ramp : (after (.mixcol 0) (start.writeX 0 (ramp 0))).map (fun t => t.readX 0) =
    some (bytes [0x02, 0x07, 0x00, 0x05, 0x06, 0x03, 0x04, 0x01, 0x0A, 0x0F, 0x08, 0x0D, 0x0E, 0x0B, 0x0C, 0x09]) :=
  by decide +kernel

theorem test_addkey : (after (.addkey 0 1) ((start.writeX 0 (bytes [0x04, 0x66, 0x81, 0xE5, 0xE0, 0xCB, 0x19, 0x9A, 0x48, 0xF8, 0xD3, 0x7A, 0x28, 0x06, 0x26, 0x4C])).writeX 1
      (bytes [0xA0, 0xFA, 0xFE, 0x17, 0x88, 0x54, 0x2C, 0xB1, 0x23, 0xA3, 0x39, 0x39, 0x2A, 0x6C, 0x76, 0x05]))).map
      (fun t => t.readX 0) =
    some (bytes [0xA4, 0x9C, 0x7F, 0xF2, 0x68, 0x9F, 0x35, 0x2B, 0x6B, 0x5B, 0xEA, 0x43, 0x02, 0x6A, 0x50, 0x49]) :=
  by decide +kernel

theorem test_addkey_same : (after (.addkey 0 0) (start.writeX 0 (ramp 0))).map (fun t => t.readX 0) =
    some (0) := by decide +kernel

theorem test_aesrnd : (after (.aesrnd 0 1) ((start.writeX 0 (bytes [0x19, 0x3D, 0xE3, 0xBE, 0xA0, 0xF4, 0xE2, 0x2B, 0x9A, 0xC6, 0x8D, 0x2A, 0xE9, 0xF8, 0x48, 0x08])).writeX 1
      (bytes [0xA0, 0xFA, 0xFE, 0x17, 0x88, 0x54, 0x2C, 0xB1, 0x23, 0xA3, 0x39, 0x39, 0x2A, 0x6C, 0x76, 0x05]))).map
      (fun t => t.readX 0) =
    some (bytes [0xA4, 0x9C, 0x7F, 0xF2, 0x68, 0x9F, 0x35, 0x2B, 0x6B, 0x5B, 0xEA, 0x43, 0x02, 0x6A, 0x50, 0x49]) :=
  by decide +kernel

theorem test_kinit : (after (.kinit 24) vectorA).map (fun t => (t.k, t.readX 24)) =
    some (ramp 128, ramp 128) := by decide +kernel

/-- Wrap, no carry into byte 1 (section 4). -/
theorem test_knext : (after (.knext 1) (start.withK (bytes [0xFF, 0x00, 0x00, 0x00, 0x00, 0x00, 0x00, 0x00, 0x00, 0x00, 0x00, 0x00, 0x00, 0x00, 0x03, 0x78]))).map
      (fun t => (t.readX 1, t.k)) =
    some (bytes [0xFF, 0x00, 0x00, 0x00, 0x00, 0x00, 0x00, 0x00, 0x00, 0x00, 0x00, 0x00, 0x00, 0x00, 0x03, 0x78],
      bytes [0x00, 0x00, 0x00, 0x00, 0x00, 0x00, 0x00, 0x00, 0x00, 0x00, 0x00, 0x00, 0x00, 0x00, 0x03, 0x78]) :=
  by decide +kernel

theorem test_toword : (after (.toword 2 5) filled).map (fun t => t.readX 2) =
    some (bytes [0x05, 0x06, 0x07, 0x08, 0x09, 0x0A, 0x0B, 0x0C, 0x0D, 0x0E, 0x0F, 0x10, 0x11, 0x12, 0x13, 0x14]) :=
  by decide +kernel

theorem test_toword_range : (after (.toword 5 0xFFFF) filled).map (fun t => (t.readX 5, t.status)) =
    some (0, 0x05) := by decide +kernel

theorem test_toblk : (after (.toblk 0) filled).map (fun t => (t.readX 23, t.readX 24, t.readX 31, t.status)) =
    some (0, ramp 0, ramp 112, 0) := by decide +kernel

/-- 128·512 is not truncated (section 5). -/
theorem test_toblk_range : (after (.toblk 512) filled).map (fun t => (t.readX 24, t.status)) =
    some (0, 0x05) := by decide +kernel

theorem test_w2m : (after (.w2m 0) (start.writeX 0 (bytes [0x19, 0x3D, 0xE3, 0xBE, 0xA0, 0xF4, 0xE2, 0x2B, 0x9A, 0xC6, 0x8D, 0x2A, 0xE9, 0xF8, 0x48, 0x08]))).map
      (fun t => t.readX 0) =
    some (bytes [0x19, 0xA0, 0x9A, 0xE9, 0x3D, 0xF4, 0xC6, 0xF8, 0xE3, 0xE2, 0x8D, 0x48, 0xBE, 0x2B, 0x2A, 0x08]) :=
  by decide +kernel

theorem test_m2w : (after (.m2w 0) (start.writeX 0 (bytes [0x00, 0x04, 0x08, 0x0C, 0x01, 0x05, 0x09, 0x0D, 0x02, 0x06, 0x0A, 0x0E, 0x03, 0x07, 0x0B, 0x0F]))).map
      (fun t => t.readX 0) =
    some (ramp 0) := by decide +kernel

theorem test_build : (after .build vectorA).map (fun t => (t.readX 0, t.readX 7, t.readX 8, t.readX 15)) =
    some (ramp 0, ramp 112, ramp 128, ramp 240) := by decide +kernel

/-- Section 6.2: block word 5 in cells 13, 14 and 15. -/
theorem test_build_sourceDefect :
    (after .build (((State.resetWith ⟨0, 0, true, .sourceDefect, .column, .columnMajor⟩).writeBank 16 16 fun i =>
      ramp (16 * i)))).map (fun t => (t.readX 12, t.readX 13, t.readX 14, t.readX 15)) =
    some (ramp 192, ramp 208, ramp 208, ramp 208) := by decide +kernel

/-- The grid of vector A after `BUILD` (section 6.1). -/
def gridA : State := vectorA.writeBank 0 16 fun n => ramp (16 * n)

/-- Section 6.1. -/
theorem test_bigsub : (after .bigsub gridA).map (fun t => (t.readX 0, t.readX 15, byteAt t.k 0)) =
    some (bytes [0x6C, 0xAE, 0xE6, 0x56, 0x2E, 0x69, 0x17, 0x87, 0x37, 0x4F, 0xC5, 0x1F, 0xA9, 0x79, 0x79, 0x4B],
      bytes [0x3A, 0x46, 0x4E, 0xD8, 0x73, 0xA7, 0xF6, 0xBF, 0x90, 0x9F, 0x11, 0x8D, 0x57, 0xC5, 0x19, 0x41], 0x0E) :=
  by decide +kernel

/-- `P` of section 6.1: x1 from x5, x7 from x3, x15 from x11. -/
theorem test_bigshr : (after .bigshr gridA).map (fun t => (t.readX 0, t.readX 1, t.readX 7, t.readX 15)) =
    some (ramp 0, ramp 80, ramp 48, ramp 176) := by decide +kernel

/-- Section 6.1, one coordinate: the bytes 6C 60 1D 3A of column 0 become 5F B1 78 BD. -/
theorem test_bigmix :
    (after .bigmix ((((start.writeX 0 0x6C).writeX 1 0x60).writeX 2 0x1D).writeX 3 0x3A)).map (fun t =>
      (byteAt (t.readX 0) 0, byteAt (t.readX 1) 0, byteAt (t.readX 2) 0, byteAt (t.readX 3) 0)) =
    some (0x5F, 0xB1, 0x78, 0xBD) := by decide +kernel

/-- Section 6.1, the end of round 1. -/
theorem test_round : (after .round gridA).map (fun t => (t.readX 0, byteAt t.k 0)) =
    some (bytes [0x5F, 0x93, 0xBF, 0xA1, 0x61, 0x2E, 0x88, 0x14, 0x71, 0x19, 0x75, 0x60, 0x6B, 0x52, 0xFD, 0xCB], 0x0E) :=
  by decide +kernel

/-- Section 6.1, from x0 and x8 after round 10. -/
theorem test_final : (after .final ((vectorA.writeX 0 (bytes [0x73, 0xA7, 0x7B, 0xCC, 0xAB, 0x4D, 0x97, 0x48, 0x90, 0x1E, 0xEB, 0xE4, 0x13, 0xF7, 0xA0, 0xC9])).writeX 8 (bytes [0x41, 0xFB, 0xEE, 0x28, 0x8F, 0x80, 0x33, 0xA4, 0x7D, 0x6C, 0x6A, 0xEF, 0x6E, 0x09, 0xFB, 0x8D]))).map
      (fun t => t.readX 16) =
    some (bytes [0xB2, 0xDC, 0x15, 0x64, 0xA4, 0x4D, 0x24, 0x6C, 0x6D, 0xF2, 0x01, 0x8B, 0xFD, 0x7E, 0xDB, 0xC4]) :=
  by decide +kernel

/-- Section 6.1: `K` has grown by 160, B is as before;
what becomes of x0..x23 follows from the tests of its steps (R192). -/
theorem test_compress : (after .compress vectorA).map (fun t => (byteAt t.k 0, t.readX 24, t.status)) =
    some (0x9E, ramp 128, 0) := by decide +kernel

/-! ## The step -/

/-- P6, command 1: an illegal word is cause 1 and leaves `DOUT`. -/
theorem test_step_illegal : (stepped (presenting 0x10020301#32 0)).map (fun t => (t.status, t.dout)) =
    some (0x03, 0) := by decide +kernel
/-- P5, commands 5 and 6: a halted block discards, and reads its status. -/
theorem test_step_halted : (stepped (haltedWith 0xFFFFFFFF#32)).map (fun t => (t.status, t.dout)) = some (0x05, 0) ∧
    (stepped (haltedWith 0x01000000#32)).map (fun t => (t.status, t.dout)) = some (0x05, 5) := by decide +kernel
/-- The reset step leaves a fault (R217, R230). -/
theorem test_step_reset :
    (stepped ((filled.raise .illegalCommand).withProgram [.rst])).map (fun t => (t.status, t.dout, t.msg)) =
    some (0x00, 0, []) := by decide +kernel
/-- The opcode-table word runs as the first command after reset. -/
theorem test_withFetchWord : (stepped (State.reset.withFetchWord 32 0x10578300)).map (fun t => byteAt t.dout 0) =
    some 0xC1 := by decide +kernel
/-- Section 7, M0 (R248): the empty message's one Block. -/
theorem test_pad_empty : (pad []).map (fun p => (p.length, p[0]?, p[1]?, p[109]?, p[110]?, p[111]?, p[127]?)) =
    some (128, some 0x80, some 0, some 0, some 0, some 2, some 0) := by decide +kernel
/-- Section 7, M2: 110 bytes, where the tag overwrites the marker (R240). -/
theorem test_pad_overwritten :
    (pad (List.replicate 110 0x55)).map (fun p => (p[109]?, p[110]?, p[111]?, p[127]?)) =
    some (some 0x55, some 0, some 2, some 0x70) := by decide +kernel

/-! ## Witnesses: concrete states and operands that meet the hypotheses of the statements -/

/-- The two premises of `spelledBy` at opcode `op` and must-be-zero bits `lo .. lo+n-1`: a word with all of them zero and
the others set, and the words with only the lowest or only the highest set. -/
def spelledPremises (row : BitVec 8 × Nat × Nat) : Bool :=
  let (op, lo, n) := row
  let none : Command := (op ++ (BitVec.allOnes 24 &&& ~~~(BitVec.ofNat 24 (2 ^ (lo + n) - 2 ^ lo))))
  let low : Command := (op ++ BitVec.ofNat 24 (2 ^ lo))
  let high : Command := (op ++ BitVec.ofNat 24 (2 ^ (lo + n - 1)))
  none.extractLsb' 24 8 == op && none.extractLsb' lo n == 0#n &&
  low.extractLsb' 24 8 == op && low.extractLsb' lo n != 0#n &&
  high.extractLsb' 24 8 == op && high.extractLsb' lo n != 0#n

/-- Every `spelledBy` of the statements. -/
theorem witness_spelledBy :
    ([(0x00#8, 0, 24), (0x01#8, 0, 24), (0x02#8, 0, 19), (0x03#8, 0, 19), (0x04#8, 16, 8), (0x10#8, 0, 8), (0x20#8, 0, 16), (0x21#8, 0, 16), (0x22#8, 0, 19),
      (0x23#8, 0, 19), (0x30#8, 0, 19), (0x31#8, 0, 19), (0x32#8, 0, 14), (0x33#8, 0, 14), (0x40#8, 0, 19), (0x41#8, 0, 19), (0x50#8, 16, 3), (0x51#8, 16, 8),
      (0x52#8, 0, 19), (0x53#8, 0, 19), (0x60#8, 0, 24), (0x61#8, 0, 24), (0x62#8, 0, 24), (0x63#8, 0, 24), (0x64#8, 0, 24), (0x65#8, 0, 24), (0x66#8, 0, 24)].all spelledPremises) = true ∧
    (presenting 0x60000001#32 0).halted = false ∧
    (presenting 0x60000001#32 0).pending = .command 0x60000001#32 0 :: [] := by decide +kernel

theorem witness_EncodeOfDecodeIsTheWord : decode 0x10578300#32 = .ok (.gfmul 0x57 0x83) := by decide

theorem witness_DecodingIsByMatchAndMask : ⟨"AESRND", 0x33000000#32, 0xFF003FFF#32⟩ ∈ opcodeTable ∧
    0x33004000#32 &&& 0xFF003FFF#32 = 0x33000000#32 ∧ wellFormedWord 0x33004001#32 = false := by decide

theorem witness_IllegalWordsAreOfTwoKinds : opcodeAssigned 0xFF000000#32 = false ∧ opcodeAssigned 0x10020301#32 = true ∧
    wellFormedWord 0x10020301#32 = false ∧ (presenting 0x10020301#32 0).halted = false ∧
    (presenting 0x10020301#32 0).pending = .command 0x10020301#32 0 :: [] := by decide +kernel

theorem witness_StepRunsTheDecodedCommand : (presenting 0x02F80000#32 7).pending = .command 0x02F80000#32 7 :: [] ∧
    (presenting 0x02F80000#32 7).halted = false ∧ decode 0x02F80000#32 = .ok (.ldw 31) ∧
    (haltedWith 0x01000000#32).pending = .command 0x01000000#32 0 :: [] ∧
    (haltedWith 0x01000000#32).halted = true ∧ decode 0x01000000#32 = .ok .rdst := by decide +kernel

theorem witness_EveryStepConsumesOneInput : start.pending = [] ∧ (start.withProgram [.rst]).pending = .rst :: [] ∧
    ∃ t, step (start.withProgram [.rst]) = .next t := ⟨rfl, rfl, _, rfl⟩

theorem witness_IllegalCommandRecordsCauseOneOnly : (presenting 0x10020301#32 0).pending = .command 0x10020301#32 0 :: [] ∧
    (presenting 0x10020301#32 0).halted = false ∧ decode 0x10020301#32 = .error .mustBeZeroBitSet ∧
    exec .nop (start.raise .illegalCommand) = .next (start.raise .illegalCommand) ∧
    (start.raise .illegalCommand).status = 0x03#8 := ⟨rfl, by decide, by decide, rfl, by decide⟩

theorem witness_HaltedBlockDiscardsAllButRdst : (haltedWith 0x01000000#32).halted = true ∧
    (haltedWith 0x01000000#32).pending = .command 0x01000000#32 0 :: [] ∧
    (haltedWith 0x02000000#32).halted = true ∧
    (haltedWith 0x02000000#32).pending = .command 0x02000000#32 0 :: [] ∧ 0x02000000#32 ≠ 0x01000000#32 :=
  by decide +kernel

theorem witness_HaltedUntilReset : (haltedWith 0xFFFFFFFF#32).halted = true ∧
    HostInput.rst ∉ (haltedWith 0xFFFFFFFF#32).pending ∧ ∃ t, Sys2Proof.core.run 1 (haltedWith 0xFFFFFFFF#32) = .next t := ⟨by decide, by decide, _, rfl⟩

theorem witness_ResetStepClearsStatusAndDout : (filled.withProgram [.rst]).pending = .rst :: [] := rfl

theorem witness_EveryStepKeepsTheInvariant : filled.inv ∧ (filled.withProgram [.command 0x04000000#32 9]).inv ∧
    ∃ t, step (filled.withProgram [.command 0x04000000#32 9]) = .next t := by
  refine ⟨by decide +kernel, by decide +kernel, ?_⟩
  rw [step_command _ 0x04000000#32 9 [] rfl]
  exact ⟨_, rfl⟩

theorem witness_StepsStopOnlyOnUnwrittenMsg : step (presenting 0x50000000#32 0) = .fault .unwrittenMsg ∧
    step (presenting 0x51000000#32 0) = .fault .unwrittenMsg := ⟨rfl, rfl⟩

theorem witness_ErrChangesOnlyByFaultOrReset : (∃ t, step (presenting 0x04000071#32 0) = .next t ∧ t.halted = true) ∧
    (presenting 0x04000071#32 0).halted = false ∧
    (∃ t, step ((start.raise .addressRange).withProgram [.rst]) = .next t ∧ t.halted = false) ∧
    ((start.raise .addressRange).withProgram [.rst]).halted = true := ⟨⟨_, rfl, by decide⟩, by decide, ⟨_, rfl, by decide⟩, by decide⟩

theorem witness_ParametersNeverChange : ∃ t, step (start.withProgram [.rst]) = .next t := ⟨_, rfl⟩

theorem witness_DoutIsWrittenByFiveCommands : (∃ t, exec (.gfmul 2 3) start = .next t ∧ t.dout ≠ start.dout) ∧
    (presenting 0x10020300#32 0).pending = .command 0x10020300#32 0 :: [] ∧
    ∃ t, step (presenting 0x10020300#32 0) = .next t ∧ t.dout ≠ (presenting 0x10020300#32 0).dout := ⟨⟨_, rfl, by decide +kernel⟩, rfl, _, rfl, by decide +kernel⟩

theorem witness_KeyIsWrittenByFiveCommands : (presenting 0x41000000#32 0).pending = .command 0x41000000#32 0 :: [] ∧
    ∃ t, step (presenting 0x41000000#32 0) = .next t ∧ t.k ≠ (presenting 0x41000000#32 0).k := ⟨rfl, _, rfl, by decide +kernel⟩

theorem witness_MsgIsWrittenByStmOnly : (stepped (presenting 0x04000070#32 9)).map
      (fun t => t.msg.read 127) = some (some 0) ∧
    (presenting 0x04000070#32 9).msg.read 127 = none ∧
    (stepped (filled.withProgram [.rst])).map (fun t => t.msg.read 0) = some none ∧
    (filled.withProgram [.rst]).msg.read 0 = some 0 := by decide +kernel

theorem witness_DinIsReadByLdwAndStmOnly : decode 0x02000000#32 = .ok (.ldw 0) ∧
    ∀ i, decode 0x66000000#32 = .ok i → i.mnemonic ≠ "LDW" ∧ i.mnemonic ≠ "STM" := by
  refine ⟨by decide, fun i h => ?_⟩
  rw [test_decode_compress.1] at h
  cases h
  decide

theorem witness_LdwLoadsDin : (presenting 0x02000000#32 7).pending = .command 0x02000000#32 7 :: [] := rfl

theorem witness_NopChangesNothing : decode 0x00000000#32 = .ok .nop := by decide

/-- Also for `AddressRangeIsRaisedOutsideMsg` and `TowordReadsWhatStmStored`:
the last offset in range, the first out of it. -/
theorem witness_StmStoresSixteenBytes : (presenting 0x04000070#32 7).pending = .command 0x04000070#32 7 :: [] ∧
    (112 : Offset).toNat + 16 ≤ (presenting 0x04000070#32 7).msgBytes ∧ start.msgBytes < (113 : Offset).toNat + 16 :=
  by decide +kernel

theorem witness_TowordCopiesSixteenBytes : (112 : Offset).toNat + 16 ≤ filled.msgBytes ∧
    (∀ i, i < 16 → filled.msg.read ((112 : Offset).toNat + i) ≠ none) ∧ filled.msgBytes < (113 : Offset).toNat + 16 :=
  by decide +kernel

/-- Also for `ToblkIsEightTowords`. -/
theorem witness_ToblkCopiesOneBlock : 128 * (0 : Offset).toNat + 128 ≤ filled.msgBytes ∧
    (∀ i, i < 128 → filled.msg.read (128 * (0 : Offset).toNat + i) ≠ none) ∧
    filled.msgBytes < 128 * (1 : Offset).toNat + 128 := by decide +kernel

theorem witness_UnwrittenMsgStopsTheRead : (112 : Offset).toNat + 16 ≤ start.msgBytes ∧ start.msg.read ((112 : Offset).toNat + 15) = none ∧
    128 * (0 : Offset).toNat + 128 ≤ start.msgBytes ∧ start.msg.read (128 * (0 : Offset).toNat + 127) = none ∧
    (filled.withProgram [.rst]).pending = .rst :: [] := by decide +kernel

theorem witness_AddressRangeIsRaisedOutsideMsg : start.msgBytes < (113 : Offset).toNat + 16 ∧ start.msgBytes < 128 * (1 : Offset).toNat + 128 ∧
    ∃ t, exec (.toblk 1) start = .next t ∧ t.status ≠ start.status := ⟨by decide, by decide, _, rfl, by decide⟩

theorem witness_SboxIsTheAffineImageOfTheInverse : (0x53 : Byte) ≠ 0 ∧ gmul 0x53 0xCA = 1 := by decide +kernel

/-- For the clauses of `BuildFillsTheGrid`, `BigsubKeysEveryCell` and `BigmixMixesTheGrid` under each switch. -/
theorem witness_BuildAndBigsubSwitches : start.params.gridW67 = .per46 ∧ start.params.perwordMix = true ∧ start.params.bigmixAxis = .column ∧
    (State.resetWith ⟨0, 0, false, .sourceDefect, .row, .rowMajor⟩).params.gridW67 = .sourceDefect ∧
    (State.resetWith ⟨0, 0, false, .sourceDefect, .row, .rowMajor⟩).params.perwordMix = false ∧
    (State.resetWith ⟨0, 0, false, .sourceDefect, .row, .rowMajor⟩).params.bigmixAxis = .row := by decide +kernel

/-- For `AesrndIsOneFullRound`, `InversePairsRestore` and `AddkeyXorsTheKey`:
two registers that differ, and one twice. -/
theorem witness_RegistersDiffer : (1 : Reg) ≠ 0 ∧ (0 : Reg) = 0 := by decide +kernel

theorem witness_RdstReadsStatus : start.inv ∧ (start.raise .addressRange).inv := by decide +kernel

theorem witness_CompressIgnoresTheOldGrid : (∀ r : Reg, 16 ≤ r.val → vectorA.readX r = gridA.readX r) ∧ vectorA.k = gridA.k ∧ vectorA.params = gridA.params ∧
    vectorA.readX 1 ≠ gridA.readX 1 := by decide +kernel

theorem witness_PaddingHasItsFields : 8 * ([0x61] : List Byte).length < 2 ^ 128 ∧ (∃ p, pad [0x61] = some p ∧ ([0x61] : List Byte).length + 18 < p.length) ∧
    8 * (List.replicate 110 (0x55 : Byte)).length < 2 ^ 128 := ⟨by decide, ⟨_, rfl, by decide +kernel⟩, by decide +kernel⟩

end Sys2Proof.Tests
end

section
/-! PROOFS. The statements on the scope of the model (`spec/00_scope.md`). -/

namespace Sys2Proof.Proofs

open Sys2Proof.Machine

/-- Settles O17, by the cases of a step: idling, reset, discarding and fault entry each write other fields only, and an
executed command keeps the parameters whatever it is (`Reaches.params`). -/
theorem parametersNeverChange : Obligations.ParametersNeverChange := by
  unfold Obligations.ParametersNeverChange
  intro s t h
  rcases step_next_cases h with ⟨_, rfl⟩ | ⟨_, _, rfl⟩ | ⟨_, _, _, _, hcommand⟩
  · rfl
  · rw [State.advance_params, State.takeReset_params]
  · rcases hcommand with ⟨_, rfl⟩ | ⟨_, rfl⟩ | ⟨_, _, _, hexec, rfl⟩
    · exact State.advance_params s
    · rw [State.advance_params, State.raise_params]
    · rw [State.advance_params, (exec_next_reaches hexec).params]

end Sys2Proof.Proofs
end

section
/-! PROOFS. The statements on the state of the block (`spec/10_state.md`), with the facts about acceptance, stops and
the single fields that they need. -/

namespace Sys2Proof.Machine

/-! ## Accepting a word -/

/-- A word is executed exactly if it decodes and the block is running or the word is `RDST` (`60_exceptions.md` R215,
R216). -/
theorem State.accept_eq_execute_iff (s : State) (c : Command) (i : Instr) :
    s.accept c = .execute i ↔ (s.halted = false ∨ c = rdstWord) ∧ decode c = .ok i := by
  rcases s.accept_cases c with ⟨hhalted, hne, ha⟩ | ⟨_, ⟨e, hd⟩, ha⟩ | ⟨hor, j, hd, ha⟩
  · simp [ha, hhalted, hne]
  · simp [ha, hd]
  · simp [ha, hd, hor]

/-- A command other than `RDST` is executed by a running block only (`60_exceptions.md` R215). -/
theorem State.running_of_accept_execute {s : State} {c : Command} {i : Instr} (h : s.accept c = .execute i)
    (hi : i ≠ .rdst) : s.halted = false := by
  obtain ⟨hrunning | rfl, hd⟩ := (s.accept_eq_execute_iff c i).1 h
  · exact hrunning
  · rw [decode_rdstWord] at hd
    cases hd
    exact absurd rfl hi

/-- What a step that answers a next state does with a presented command. -/
theorem step_next_command {s t : State} {c : Command} {d : Word} {rest : List HostInput}
    (hp : s.pending = .command c d :: rest) (h : step s = .next t) :
    t = s.advance ∨ t = (s.raise .illegalCommand).advance ∨
      ∃ i u, decode c = .ok i ∧ Reaches i s u ∧ t = u.advance := by
  rcases step_next_cases h with ⟨hq, _⟩ | ⟨_, hq, _⟩ | ⟨_, _, _, hq, hcommand⟩
  · cases hp.symm.trans hq
  · cases hp.symm.trans hq
  · cases hp.symm.trans hq
    rcases hcommand with ⟨_, ht⟩ | ⟨_, ht⟩ | ⟨i, u, ha, he, ht⟩
    · exact .inl ht
    · exact .inr (.inl ht)
    · exact .inr (.inr ⟨i, u, ((s.accept_eq_execute_iff c i).1 ha).2, exec_next_reaches he, ht⟩)

/-- Advancing drops the input just consumed and nothing else. -/
theorem State.advance_eq {s : State} {input : HostInput} {rest : List HostInput} (h : s.pending = input :: rest) :
    s.advance = { s with pending := rest } := by
  unfold State.advance
  rw [h, List.tail_cons]

/-! ## The halted block -/

@[simp] theorem State.halted_advance (s : State) : s.advance.halted = s.halted := rfl

@[simp] theorem State.halted_raise (s : State) (c : Cause) : (s.raise c).halted = true :=
  statusErr_statusOfCause c

@[simp] theorem State.halted_takeReset (s : State) : s.takeReset.halted = false := statusErr_zero

theorem State.halted_congr {s t : State} (h : t.status = s.status) : t.halted = s.halted := by
  unfold State.halted
  rw [h]

/-! ## The stops -/

theorem Memory.written_eq_false_iff (m : Memory) (a n : Nat) :
    m.written a n = false ↔ ∃ i, i < n ∧ m.read (a + i) = none := by
  simp [Memory.written]

theorem afterExec_eq_fault_iff (o : Host.Outcome State Fault Refusal) (r : Fault) :
    afterExec o = .fault r ↔ o = .fault r := by
  cases o <;> simp [afterExec]

theorem afterExec_eq_refused_iff (o : Host.Outcome State Fault Refusal) (r : Refusal) :
    afterExec o = .refused r ↔ o = .refused r := by
  cases o <;> simp [afterExec]

/-- A `TOWORD` in range stops on an unwritten byte (`10_state.md` R39; log 5). -/
theorem execToword_unwritten (rd : Reg) {off : Offset} {s : State} (hr : s.inMsg (byteOffset off) 16 = true)
    (hw : s.msg.written (byteOffset off) 16 = false) : execToword rd off s = .fault .unwrittenMsg := by
  simp [execToword, hr, hw]

/-- A `TOBLK` in range stops on an unwritten byte (`10_state.md` R39; log 5). -/
theorem execToblk_unwritten {idx : Offset} {s : State} (hr : s.inMsg (blockOffset idx) 128 = true)
    (hw : s.msg.written (blockOffset idx) 128 = false) : execToblk idx s = .fault .unwrittenMsg := by
  simp [execToblk, hr, hw]

/-- The commands that stop: `TOWORD` and `TOBLK` in range, on an unwritten byte. -/
theorem exec_fault_cases {i : Instr} {s : State} {r : Fault} (h : exec i s = .fault r) :
    r = .unwrittenMsg ∧
      ((∃ rd off, i = .toword rd off ∧ s.inMsg (byteOffset off) 16 = true ∧
          s.msg.written (byteOffset off) 16 = false) ∨
        ∃ idx, i = .toblk idx ∧ s.inMsg (blockOffset idx) 128 = true ∧
          s.msg.written (blockOffset idx) 128 = false) := by
  cases i with
  | stm off => rcases execStm_cases off s with ⟨_, e⟩ | ⟨_, e⟩ <;> cases e.symm.trans h
  | toword rd off =>
    rcases execToword_cases rd off s with ⟨_, _, e⟩ | ⟨hr, hw, e⟩ | ⟨_, e⟩
    · cases e.symm.trans h
    · cases e.symm.trans h; exact ⟨rfl, .inl ⟨rd, off, rfl, hr, hw⟩⟩
    · cases e.symm.trans h
  | toblk idx =>
    rcases execToblk_cases idx s with ⟨_, _, e⟩ | ⟨hr, hw, e⟩ | ⟨_, e⟩
    · cases e.symm.trans h
    · cases e.symm.trans h; exact ⟨rfl, .inr ⟨idx, rfl, hr, hw⟩⟩
    · cases e.symm.trans h
  | _ => cases h

/-- A step that answers no next state is on a presented word that is executed, and answers what its command does. -/
theorem step_stop_cases {s : State} (h : ∀ t, step s ≠ .next t) :
    ∃ c d rest i, s.pending = .command c d :: rest ∧ s.accept c = .execute i ∧ step s = afterExec (exec i s) := by
  cases hp : s.pending with
  | nil => exact absurd (by simp [step, hp]) (h s)
  | cons input rest =>
    cases input with
    | rst => exact absurd (by simp [step, hp]) (h s.takeReset.advance)
    | command c d =>
      have hstep := step_command s c d rest hp
      cases ha : s.accept c with
      | discarded => rw [ha] at hstep; exact absurd hstep (h _)
      | illegal => rw [ha] at hstep; exact absurd hstep (h _)
      | execute i => rw [ha] at hstep; exact ⟨c, d, rest, i, rfl, ha, hstep⟩

/-- A step that stops is on a word whose command stops. -/
theorem step_fault_cases {s : State} {r : Fault} (h : step s = .fault r) :
    ∃ c d rest i, s.pending = .command c d :: rest ∧ s.accept c = .execute i ∧ exec i s = .fault r := by
  obtain ⟨c, d, rest, i, hp, ha, hstep⟩ := step_stop_cases (s := s) (by simp [h])
  exact ⟨c, d, rest, i, hp, ha, (afterExec_eq_fault_iff _ r).1 (hstep.symm.trans h)⟩

/-- No step is refused. -/
theorem step_not_refused (s : State) (r : Refusal) : step s ≠ .refused r := by
  intro h
  obtain ⟨_, _, _, i, _, _, hstep⟩ := step_stop_cases (s := s) (by simp [h])
  exact exec_not_refused i s r ((afterExec_eq_refused_iff _ r).1 (hstep.symm.trans h))

/-! ## The invariant -/

/-- The invariant speaks of `STATUS`, `MSG` and the parameters only. -/
theorem State.inv_congr {s t : State} (hst : t.status = s.status) (hm : t.msg = s.msg) (hp : t.params = s.params)
    (h : s.inv) : t.inv := by
  unfold State.inv
  rw [hst, hm, State.msgBytes_congr hp]
  exact h

/-- A state with no byte written and no fault recorded has the invariant, whatever it holds elsewhere. -/
theorem State.inv_of_unwritten {s : State} (hst : s.status = 0) (hm : s.msg = []) : s.inv := by
  unfold State.inv
  rw [hst, hm]
  exact ⟨.inl rfl, List.Pairwise.nil, by simp⟩

theorem statusOfCause_legal (c : Cause) : statusOfCause c = 0x03#8 ∨ statusOfCause c = 0x05#8 := by
  rw [statusOfCause_eq]
  cases c with
  | illegalCommand => exact .inl rfl
  | addressRange => exact .inr rfl

theorem State.inv_raise {s : State} (h : s.inv) (c : Cause) : (s.raise c).inv :=
  ⟨.inr (statusOfCause_legal c), h.2⟩

theorem State.inv_advance {s : State} (h : s.inv) : s.advance.inv := h

/-- A Word stored in range keeps the invariant: it writes no address outside `MSG` (`20_memory.md` R56). -/
theorem State.inv_store {s : State} (h : s.inv) {a : Nat} (hr : s.inMsg a 16 = true) (w : Word) :
    (s.withMsg (s.msg.writeWord a w)).inv := by
  obtain ⟨hst, hwf, hin⟩ := h
  have hrange : a + 16 ≤ s.msgBytes := (s.inMsg_iff a 16).1 hr
  refine ⟨hst, Memory.wf_writeWord hwf _ _, fun cell hcell => ?_⟩
  show cell.1 < s.msgBytes
  rcases Memory.mem_writeWord hcell with ⟨_, hlt⟩ | hold
  · omega
  · exact hin cell hold

/-- Every command keeps the invariant. -/
theorem Reaches.inv {i : Instr} {s t : State} (h : Reaches i s t) (hs : s.inv) : t.inv := by
  rcases h.status with hst | ⟨rfl, _⟩
  · rcases h.msg with hm | ⟨off, _, hr, hm⟩
    · exact State.inv_congr hst hm h.params hs
    · exact State.inv_congr (s := s.withMsg (s.msg.writeWord (byteOffset off) s.din)) hst hm h.params
        (State.inv_store hs hr _)
  · exact State.inv_raise hs _

/-! ## `DOUT` and `K` -/

/-- A command changes `DOUT` only if it is one of the five that write it (`10_state.md` R29). -/
theorem Reaches.dout_eq {i : Instr} {s t : State} (h : Reaches i s t) :
    t.dout = s.dout ∨ i = .rdst ∨ (∃ r, i = .rdw r) ∨ (∃ a b, i = .gfmul a b) ∨ (∃ a, i = .sbox a) ∨
      ∃ a, i = .isbox a := by
  cases h with
  | dout _ h => exact .inr h
  | bigsub _ => exact .inl s.bigsub_spec.2.2.2.1
  | round _ => exact .inl s.round_fields.2.2.1
  | compress _ => exact .inl s.compress_fields.2.2.1
  | _ => exact .inl rfl

/-- The four commands with a one-byte result. -/
theorem scalar_of_mnemonic {i : Instr}
    (h : i.mnemonic = "GFMUL" ∨ i.mnemonic = "SBOX" ∨ i.mnemonic = "ISBOX" ∨ i.mnemonic = "RDST") :
    (∃ a b, i = .gfmul a b) ∨ (∃ a, i = .sbox a) ∨ (∃ a, i = .isbox a) ∨ i = .rdst := by
  cases i with
  | gfmul a b => exact .inl ⟨a, b, rfl⟩
  | sbox a => exact .inr (.inl ⟨a, rfl⟩)
  | isbox a => exact .inr (.inr (.inl ⟨a, rfl⟩))
  | rdst => exact .inr (.inr (.inr rfl))
  | _ => simp [Instr.mnemonic] at h

/-- The result of a scalar command is one byte, extended with zeros (`10_state.md` R29). -/
theorem exec_scalar_dout {i : Instr} {s t : State} (h : exec i s = .next t)
    (hi : (∃ a b, i = .gfmul a b) ∨ (∃ a, i = .sbox a) ∨ (∃ a, i = .isbox a) ∨ i = .rdst) :
    ∃ b, t.dout = zext128 b := by
  rcases hi with ⟨_, _, rfl⟩ | ⟨_, rfl⟩ | ⟨_, rfl⟩ | rfl <;> cases h <;> exact ⟨_, rfl⟩

/-- Any number of advances leaves bytes 1 to 15 of the key (`43_key_schedule.md` R142). -/
theorem byteAt_iterate_keyAdvanced (m : Nat) (key : Word) {n : Nat} (hpos : 0 < n) (hn : n < 16) :
    byteAt (keyAdvanced^[m] key) n = byteAt key n := by
  induction m with
  | zero => rfl
  | succ m ih => rw [Function.iterate_succ_apply', byteAt_keyAdvanced _ _ hn, if_neg (by omega), ih]

/-- What a command does to `K`: nothing, `KINIT`'s load, or some number of advances by one of the four commands that
take keys (`10_state.md` R24). -/
theorem Reaches.k_cases {i : Instr} {s t : State} (h : Reaches i s t) :
    t.k = s.k ∨ (∃ rs, i = .kinit rs) ∨
      ((∃ rd, i = .knext rd) ∨ i = .bigsub ∨ i = .round ∨ i = .compress) ∧ ∃ m, t.k = keyAdvanced^[m] s.k := by
  cases h with
  | kinit rs h => exact .inr (.inl ⟨rs, h⟩)
  | knext rd h => exact .inr (.inr ⟨.inl ⟨rd, h⟩, 1, rfl⟩)
  | bigsub h => exact .inr (.inr ⟨.inr (.inl h), 16, s.bigsub_spec.2.1⟩)
  | round h => exact .inr (.inr ⟨.inr (.inr (.inl h)), 16, s.round_fields.1⟩)
  | compress h => exact .inr (.inr ⟨.inr (.inr (.inr h)), 160, s.compress_fields.1⟩)
  | _ => exact .inl rfl

end Sys2Proof.Machine

namespace Sys2Proof.Proofs

open Sys2Proof.Machine

/-- Settles O14, by the cases of a step: reset empties `MSG`, fault entry records a legal cause, and an executed command
keeps the invariant whatever it is (`Reaches.inv`). -/
theorem everyStepKeepsTheInvariant : Obligations.EveryStepKeepsTheInvariant := by
  unfold Obligations.EveryStepKeepsTheInvariant
  intro s t hs h
  rcases step_next_cases h with ⟨_, rfl⟩ | ⟨_, _, rfl⟩ | ⟨_, _, _, _, hcommand⟩
  · exact hs
  · exact State.inv_advance (State.inv_of_unwritten s.takeReset_status s.takeReset_msg)
  · rcases hcommand with ⟨_, rfl⟩ | ⟨_, rfl⟩ | ⟨_, _, _, hexec, rfl⟩
    · exact State.inv_advance hs
    · exact State.inv_advance (State.inv_raise hs _)
    · exact State.inv_advance ((exec_next_reaches hexec).inv hs)

/-- Settles O15: a step stops with its command (`step_fault_cases`), and only two commands stop
(`exec_fault_cases`). -/
theorem stepsStopOnlyOnUnwrittenMsg : Obligations.StepsStopOnlyOnUnwrittenMsg := by
  unfold Obligations.StepsStopOnlyOnUnwrittenMsg
  refine ⟨step_not_refused, fun s r h => ?_⟩
  obtain ⟨c, d, rest, i, hp, ha, hexec⟩ := step_fault_cases h
  have hdecode : decode c = .ok i := ((s.accept_eq_execute_iff c i).1 ha).2
  obtain ⟨hreason, ⟨rd, off, rfl, hr, hw⟩ | ⟨idx, rfl, hr, hw⟩⟩ := exec_fault_cases hexec
  · exact ⟨hreason, c, d, rest, byteOffset off, 16, hp, State.running_of_accept_execute ha (by simp),
      .inl ⟨rfl, rd, off, hdecode, rfl⟩, (s.inMsg_iff _ _).1 hr, (s.msg.written_eq_false_iff _ _).1 hw⟩
  · exact ⟨hreason, c, d, rest, blockOffset idx, 128, hp, State.running_of_accept_execute ha (by simp),
      .inr ⟨rfl, idx, hdecode, rfl⟩, (s.inMsg_iff _ _).1 hr, (s.msg.written_eq_false_iff _ _).1 hw⟩

/-- Fault entry records a cause and changes nothing else (`60_exceptions.md` R214). -/
theorem faultEntry_frame (s : State) (c : Cause) :
    ((s.raise c).advance.status = 0x03#8 ∨ (s.raise c).advance.status = 0x05#8) ∧
      (∀ r, (s.raise c).advance.readX r = s.readX r) ∧ (s.raise c).advance.k = s.k ∧
      (s.raise c).advance.dout = s.dout ∧ sameMsg s (s.raise c).advance :=
  ⟨statusOfCause_legal c, fun _ => rfl, rfl, rfl, fun _ => rfl⟩

/-- A step that is no reset keeps `ERR`, or is fault entry (`10_state.md` R28). -/
theorem step_keeps_err_or_faults {s t : State} (h : step s = .next t) :
    t.halted = s.halted ∨ (∃ rest, s.pending = .rst :: rest ∧ t.halted = false) ∨
      ∃ c, t = (s.raise c).advance := by
  rcases step_next_cases h with ⟨_, rfl⟩ | ⟨rest, hp, rfl⟩ | ⟨_, _, _, _, hcommand⟩
  · exact .inl rfl
  · exact .inr (.inl ⟨rest, hp, s.halted_takeReset⟩)
  · rcases hcommand with ⟨_, rfl⟩ | ⟨_, rfl⟩ | ⟨_, u, _, hexec, rfl⟩
    · exact .inl rfl
    · exact .inr (.inr ⟨_, rfl⟩)
    · rcases (exec_next_reaches hexec).status with hst | ⟨rfl, _⟩
      · exact .inl (State.halted_congr (s := s) (t := u.advance) hst)
      · exact .inr (.inr ⟨_, rfl⟩)

/-- Settles O16: `ERR` is kept, or cleared by reset, or set by fault entry (`step_keeps_err_or_faults`). -/
theorem errChangesOnlyByFaultOrReset : Obligations.ErrChangesOnlyByFaultOrReset := by
  unfold Obligations.ErrChangesOnlyByFaultOrReset
  intro s t h
  rcases step_keeps_err_or_faults h with hkept | ⟨rest, hp, hcleared⟩ | ⟨c, rfl⟩
  · rw [hkept]
    exact ⟨fun hf ht => by simp [hf] at ht, fun ht hf => by simp [hf] at ht⟩
  · exact ⟨fun _ ht => by simp [hcleared] at ht, fun _ _ => ⟨rest, hp⟩⟩
  · exact ⟨fun _ _ => faultEntry_frame s c, fun _ hf => by simp at hf⟩

/-- The five commands that write `DOUT`, by mnemonic. -/
theorem mnemonic_of_dout_ne {i : Instr} {s t : State} (h : Reaches i s t) (hne : t.dout ≠ s.dout) :
    i.mnemonic = "GFMUL" ∨ i.mnemonic = "SBOX" ∨ i.mnemonic = "ISBOX" ∨ i.mnemonic = "RDW" ∨
      i.mnemonic = "RDST" := by
  rcases h.dout_eq with he | rfl | ⟨_, rfl⟩ | ⟨_, _, rfl⟩ | ⟨_, rfl⟩ | ⟨_, rfl⟩
  · exact absurd he hne
  all_goals simp [Instr.mnemonic]

/-- Settles O18: a command changes `DOUT` only if it is one of the five (`Reaches.dout_eq`), a scalar result is one byte
(`exec_scalar_dout`), and a step changes `DOUT` only by executing a command. -/
theorem doutIsWrittenByFiveCommands : Obligations.DoutIsWrittenByFiveCommands := by
  unfold Obligations.DoutIsWrittenByFiveCommands
  refine ⟨fun i s t h => mnemonic_of_dout_ne (exec_next_reaches h), fun i s t h hi n hpos _ => ?_,
    fun s t c d rest hp h hne => ?_⟩
  · obtain ⟨b, hb⟩ := exec_scalar_dout h (scalar_of_mnemonic hi)
    rw [hb]
    exact byteAt_zext128_pos b n hpos
  · rcases step_next_command hp h with rfl | rfl | ⟨i, u, hd, hu, rfl⟩
    · exact absurd s.advance_dout hne
    · exact absurd (s.raise_dout .illegalCommand) hne
    · exact ⟨i, hd, mnemonic_of_dout_ne hu hne⟩

/-- Settles O19: a step changes `K` only by executing a command, and `Reaches.k_cases` says what a command does to it;
no number of advances reaches a byte above byte 0. -/
theorem keyIsWrittenByFiveCommands : Obligations.KeyIsWrittenByFiveCommands := by
  unfold Obligations.KeyIsWrittenByFiveCommands
  intro s t c d rest hp h hne
  rcases step_next_command hp h with rfl | rfl | ⟨i, u, hd, hu, rfl⟩
  · exact absurd s.advance_k hne
  · exact absurd (s.raise_k .illegalCommand) hne
  · refine ⟨i, hd, ?_⟩
    rcases hu.k_cases with hk | ⟨_, rfl⟩ | ⟨hi, m, hk⟩
    · exact absurd hk hne
    · exact .inl rfl
    · refine .inr ⟨?_, fun n hpos hn => ?_⟩
      · rcases hi with ⟨_, rfl⟩ | rfl | rfl | rfl <;> simp [Instr.mnemonic]
      · rw [State.advance_k, hk, byteAt_iterate_keyAdvanced m s.k hpos hn]

/-- Settles O20: only reset and an `STM` in range write `MSG` (`Reaches.msg`), and a store changes no byte outside its
16 (`Memory.read_writeWord`). -/
theorem msgIsWrittenByStmOnly : Obligations.MsgIsWrittenByStmOnly := by
  unfold Obligations.MsgIsWrittenByStmOnly
  intro s t a h hne
  rcases step_next_cases h with ⟨_, rfl⟩ | ⟨rest, hp, _⟩ | ⟨c, d, rest, hp, hcommand⟩
  · exact absurd rfl hne
  · exact .inl ⟨rest, hp⟩
  · rcases hcommand with ⟨_, rfl⟩ | ⟨_, rfl⟩ | ⟨i, u, ha, hexec, rfl⟩
    · exact absurd rfl hne
    · exact absurd rfl hne
    · rcases (exec_next_reaches hexec).msg with hm | ⟨off, rfl, hr, hm⟩
      · exact absurd (by rw [State.advance_msg, hm]) hne
      · rw [State.advance_msg, hm, Memory.read_writeWord] at hne
        have hhit : byteOffset off ≤ a ∧ a < byteOffset off + 16 := by
          by_contra hmiss
          exact hne (if_neg hmiss)
        exact .inr ⟨c, d, rest, off, hp, State.running_of_accept_execute ha (by simp),
          ((s.accept_eq_execute_iff c _).1 ha).2, (s.inMsg_iff _ _).1 hr, hhit⟩

/-- Settles O45: one unwritten byte makes the range unwritten, which stops the command; reset empties `MSG`. -/
theorem unwrittenMsgStopsTheRead : Obligations.UnwrittenMsgStopsTheRead := by
  unfold Obligations.UnwrittenMsgStopsTheRead
  refine ⟨fun rd off s i hr hi hnone => ?_, fun idx s i hr hi hnone => ?_, fun p a => ?_, fun s t rest a hp h => ?_⟩
  · exact execToword_unwritten rd ((s.inMsg_iff _ _).2 hr) ((s.msg.written_eq_false_iff _ _).2 ⟨i, hi, hnone⟩)
  · exact execToblk_unwritten ((s.inMsg_iff _ _).2 hr) ((s.msg.written_eq_false_iff _ _).2 ⟨i, hi, hnone⟩)
  · rw [State.resetWith_msg, Memory.read_nil]
  · rcases step_next_cases h with ⟨hq, _⟩ | ⟨_, _, rfl⟩ | ⟨_, _, _, hq, _⟩
    · cases hp.symm.trans hq
    · rw [State.advance_msg, State.takeReset_msg, Memory.read_nil]
    · cases hp.symm.trans hq

/-- Settles O6: the word is accepted (`State.accept_eq_execute_iff`), and the command leaves the host's list as it was
(`Reaches.pending`), so that advancing leaves `rest`. -/
theorem stepRunsTheDecodedCommand : Obligations.StepRunsTheDecodedCommand := by
  unfold Obligations.StepRunsTheDecodedCommand
  intro s c d rest i hp hor hd
  refine ⟨s.din_of_pending c d rest hp, ?_⟩
  have haccept : s.accept c = .execute i := (s.accept_eq_execute_iff c i).2 ⟨hor, hd⟩
  have hstep : step s = afterExec (exec i s) := by rw [step_command s c d rest hp, haccept]
  rw [hstep]
  cases hexec : exec i s with
  | next t => exact congrArg _ (State.advance_eq ((exec_next_reaches hexec).pending.trans hp))
  | fault r => rfl
  | refused r => rfl

/-- Settles O7: reset and fault entry leave the host's list to `advance`, as every command does
(`Reaches.pending`). -/
theorem everyStepConsumesOneInput : Obligations.EveryStepConsumesOneInput := by
  unfold Obligations.EveryStepConsumesOneInput
  refine ⟨fun s hp => by simp [step, hp], fun s t input rest hp h => ?_⟩
  have htail : s.pending.tail = rest := by rw [hp, List.tail_cons]
  rcases step_next_cases h with ⟨hq, _⟩ | ⟨_, _, rfl⟩ | ⟨_, _, _, _, hcommand⟩
  · cases hp.symm.trans hq
  · exact htail
  · rcases hcommand with ⟨_, rfl⟩ | ⟨_, rfl⟩ | ⟨_, _, _, hexec, rfl⟩
    · exact htail
    · exact htail
    · rw [State.advance_pending, (exec_next_reaches hexec).pending, htail]

/-- Settles O12, by the fields of the state after reset. -/
theorem stateAfterReset : Obligations.StateAfterReset := by
  unfold Obligations.StateAfterReset
  exact ⟨fun p => ⟨State.resetWith_status p, State.resetWith_dout p, State.resetWith_params p⟩, rfl⟩

/-- Settles O13: after reset no byte is written and no fault recorded (`State.inv_of_unwritten`). -/
theorem invariantHoldsAfterReset : Obligations.InvariantHoldsAfterReset := by
  unfold Obligations.InvariantHoldsAfterReset
  exact ⟨State.inv_of_unwritten (State.resetWith_status _) (State.resetWith_msg _),
    fun p _ => State.inv_of_unwritten (State.resetWith_status p) (State.resetWith_msg p)⟩

end Sys2Proof.Proofs
end

section
/-! PROOFS. The statements on the message memory (`spec/20_memory.md`), with the facts about ranges of bytes, banks and
sequences of commands that they need. -/

namespace Sys2Proof.Machine

/-! ## Ranges of bytes -/

/-- A range is written exactly if its two parts are. -/
theorem Memory.written_add (m : Memory) (a n k : Nat) :
    m.written a (n + k) = (m.written a n && m.written (a + n) k) := by
  simp [Memory.written, List.range_add, List.all_map, Function.comp_def, Nat.add_assoc]

/-- A stored Word leaves its whole range written (`20_memory.md` R52). -/
theorem Memory.written_writeWord (m : Memory) (a : Nat) (w : Word) : (m.writeWord a w).written a 16 = true := by
  refine (Memory.written_iff _ a 16).2 fun i hi => ⟨byteAt w (a + i - a), ?_⟩
  rw [Memory.read_writeWord, if_pos (by omega)]

/-- A stored Word is read back from its address, whatever the address (`20_memory.md` R52, R55). -/
theorem Memory.wordAt_writeWord (m : Memory) (a : Nat) (w : Word) : (m.writeWord a w).wordAt a = w := by
  refine word_ext fun i hi => Option.some.inj ?_
  rw [← Memory.read_eq_byteAt_wordAt (m.written_writeWord a w) i hi, Memory.read_writeWord, if_pos (by omega),
    Nat.add_sub_cancel_left]

/-- An access that ends no later than one in `MSG` is in `MSG` (`20_memory.md` R56). -/
theorem State.inMsg_mono {s : State} {a n b k : Nat} (h : s.inMsg a n = true) (hle : b + k ≤ a + n) :
    s.inMsg b k = true :=
  (s.inMsg_iff b k).2 (hle.trans ((s.inMsg_iff a n).1 h))

/-- Whether an access is in `MSG` does not depend on what `MSG` holds (`20_memory.md` R56). -/
@[simp] theorem State.inMsg_withMsg (s : State) (m : Memory) (a n : Nat) : (s.withMsg m).inMsg a n = s.inMsg a n := rfl

/-- Every address in `MSG` fits an offset operand (`20_memory.md` R51). -/
theorem State.byteOffset_ofNat {s : State} {a n : Nat} (h : s.inMsg a n = true) (hn : 0 < n) :
    byteOffset (BitVec.ofNat 16 a) = a := by
  have hin := (s.inMsg_iff a n).1 h
  have hmax := s.msgBytes_range.2.2
  exact Nat.mod_eq_of_lt (by omega)

/-! ## Banks, one register after the other -/

theorem State.writeBank_zero (s : State) (b : Nat) (f : Nat → Word) : s.writeBank b 0 f = s := by
  refine State.ext (fun r => ?_) rfl rfl rfl rfl rfl rfl rfl
  rw [State.readX_writeBank, if_neg (by omega)]

/-- A bank with one more register: that register is written after the others. -/
theorem State.writeBank_succ (s : State) (b n : Nat) (f : Nat → Word) (h : b + n < 32) :
    s.writeBank b (n + 1) f = (s.writeBank b n f).writeX (regOf (b + n)) (f n) := by
  refine State.ext (fun r => ?_) rfl rfl rfl rfl rfl rfl rfl
  rw [State.readX_writeBank, State.readX_writeX, State.readX_writeBank]
  by_cases hr : r = regOf (b + n)
  · have hval : r.val = b + n := by rw [hr, regOf_val _ h]
    rw [if_pos hr, if_pos (by omega), hval, Nat.add_sub_cancel_left]
  · have hval : r.val ≠ b + n := fun e => hr (by rw [← e, regOf_self])
    rw [if_neg hr]
    exact if_congr (by omega) rfl rfl

/-! ## Sequences of commands -/

theorem execAll_singleton (i : Instr) (s : State) : execAll [i] s = exec i s := by
  unfold execAll
  cases exec i s <;> rfl

theorem execAll_cons_of_next {i : Instr} {s t : State} (h : exec i s = .next t) (is : List Instr) :
    execAll (i :: is) s = execAll is t := by
  rw [execAll, h]

theorem execAll_cons_of_fault {i : Instr} {s : State} {r : Fault} (h : exec i s = .fault r) (is : List Instr) :
    execAll (i :: is) s = .fault r := by
  rw [execAll, h]

/-- A sequence whose first part answers a next state goes on from that state. -/
theorem execAll_append_of_next {is : List Instr} {s t : State} (h : execAll is s = .next t) (js : List Instr) :
    execAll (is ++ js) s = execAll js t := by
  induction is generalizing s with
  | nil => cases h; rfl
  | cons i is ih =>
    cases hexec : exec i s with
    | next u =>
      rw [execAll_cons_of_next hexec] at h
      rw [List.cons_append, execAll_cons_of_next hexec, ih h]
    | fault r => simp [execAll, hexec] at h
    | refused r => simp [execAll, hexec] at h

/-- A sequence whose first part stops with a fault stops with it. -/
theorem execAll_append_of_fault {is : List Instr} {s : State} {r : Fault} (h : execAll is s = .fault r)
    (js : List Instr) : execAll (is ++ js) s = .fault r := by
  induction is generalizing s with
  | nil => cases h
  | cons i is ih =>
    cases hexec : exec i s with
    | next u =>
      rw [execAll_cons_of_next hexec] at h
      rw [List.cons_append, execAll_cons_of_next hexec, ih h]
    | fault q => exact (execAll_cons_of_fault hexec _).trans ((execAll_cons_of_fault hexec is).symm.trans h)
    | refused q => simp [execAll, hexec] at h

/-! ## Reading and storing Words in range -/

/-- `STM` in range (`46_data_and_system.md` R203). -/
theorem exec_stm_inMsg {off : Offset} {s : State} (hr : s.inMsg (byteOffset off) 16 = true) :
    exec (.stm off) s = .next (s.withMsg (s.msg.writeWord (byteOffset off) s.din)) := by
  show execStm off s = _
  rw [execStm, if_pos hr]

/-- `TOWORD` in range (`44_block_codec.md` R159; log 5). -/
theorem exec_toword_inMsg (rd : Reg) {off : Offset} {s : State} (hr : s.inMsg (byteOffset off) 16 = true) :
    exec (.toword rd off) s =
      if s.msg.written (byteOffset off) 16 then .next (s.writeX rd (s.msg.wordAt (byteOffset off)))
      else .fault .unwrittenMsg := by
  show execToword rd off s = _
  rw [execToword, if_pos hr]

/-- `TOWORD` at the offset a Word was just stored at: it does not stop, and reads that Word (`20_memory.md` R62). -/
theorem exec_toword_writeWord (rd : Reg) {off : Offset} {s : State} (hr : s.inMsg (byteOffset off) 16 = true)
    (w : Word) :
    exec (.toword rd off) (s.withMsg (s.msg.writeWord (byteOffset off) w)) =
      .next ((s.withMsg (s.msg.writeWord (byteOffset off) w)).writeX rd w) := by
  rw [exec_toword_inMsg rd (by rwa [State.inMsg_withMsg]), State.withMsg_msg, if_pos (Memory.written_writeWord _ _ _),
    Memory.wordAt_writeWord]

/-- `TOBLK` in range (`44_block_codec.md` R160; log 5). -/
theorem exec_toblk_inMsg {idx : Offset} {s : State} (hr : s.inMsg (blockOffset idx) 128 = true) :
    exec (.toblk idx) s =
      if s.msg.written (blockOffset idx) 128 then
        .next (s.writeBank 24 8 fun j => s.msg.wordAt (blockOffset idx + 16 * j))
      else .fault .unwrittenMsg := by
  show execToblk idx s = _
  rw [execToblk, if_pos hr]

/-- The `TOWORD`s that read `n` Words in a row from address `a` into the registers from `b` up. -/
def towordRun (a b n : Nat) : List Instr :=
  (List.range n).map fun j => .toword (regOf (b + j)) (BitVec.ofNat 16 (a + 16 * j))

theorem towordRun_succ (a b n : Nat) :
    towordRun a b (n + 1) = towordRun a b n ++ [.toword (regOf (b + n)) (BitVec.ofNat 16 (a + 16 * n))] := by
  simp [towordRun, List.range_succ]

/-- A run of `TOWORD`s in range: a bank written at once, all from the memory before, or a stop where one of the bytes is
unwritten. By induction on the number of Words: the reads before the last change no byte of `MSG`. -/
theorem execAll_towordRun {a n : Nat} (b : Nat) {s : State} (hr : s.inMsg a (16 * n) = true) (hb : b + n ≤ 32) :
    execAll (towordRun a b n) s =
      if s.msg.written a (16 * n) then .next (s.writeBank b n fun j => s.msg.wordAt (a + 16 * j))
      else .fault .unwrittenMsg := by
  induction n with
  | zero => rw [State.writeBank_zero]; rfl
  | succ n ih =>
    have hfirst := ih (State.inMsg_mono hr (by omega)) (by omega)
    rw [towordRun_succ, Nat.mul_succ, Memory.written_add]
    cases hw : s.msg.written a (16 * n) with
    | false =>
      rw [hw] at hfirst
      exact execAll_append_of_fault hfirst _
    | true =>
      rw [hw] at hfirst
      have hlast : s.inMsg (a + 16 * n) 16 = true := State.inMsg_mono hr (by omega)
      have hoff := State.byteOffset_ofNat hlast (by omega)
      rw [execAll_append_of_next hfirst, execAll_singleton, exec_toword_inMsg _ (by rw [hoff]; exact hlast), hoff,
        State.writeBank_succ _ _ _ _ (by omega)]
      rfl

end Sys2Proof.Machine

namespace Sys2Proof.Proofs

open Sys2Proof.Machine

/-- Settles O48: `TOBLK` and the run of eight `TOWORD`s write the same bank from the same memory, or stop on the same
unwritten bytes (`execAll_towordRun`). -/
theorem toblkIsEightTowords : Obligations.ToblkIsEightTowords := by
  unfold Obligations.ToblkIsEightTowords
  intro idx s h
  have hr : s.inMsg (blockOffset idx) 128 = true := (s.inMsg_iff _ _).2 h
  exact (exec_toblk_inMsg hr).trans (execAll_towordRun (n := 8) 24 hr (by omega)).symm

/-- Settles O49: after the store the range is written and holds the Word (`Memory.wordAt_writeWord`), so that the load
does not stop and yields it; only the store touches `MSG` (`Memory.read_writeWord`). -/
theorem towordReadsWhatStmStored : Obligations.TowordReadsWhatStmStored := by
  unfold Obligations.TowordReadsWhatStmStored
  intro rd off s c d rest hp h
  have hr : s.inMsg (byteOffset off) 16 = true := (s.inMsg_iff _ _).2 h
  have hstore := exec_stm_inMsg hr
  rw [s.din_of_pending c d rest hp] at hstore
  refine ⟨_, (execAll_cons_of_next hstore _).trans ((execAll_singleton _ _).trans (exec_toword_writeWord rd hr d)),
    State.readX_writeX_self _ rd d, fun r hne => ?_, rfl, rfl, rfl, ⟨rfl, rfl, rfl⟩, fun b hb => ?_⟩
  · rw [State.readX_writeX_of_ne _ _ hne, State.readX_withMsg]
  · rw [State.writeX_msg, State.withMsg_msg, Memory.read_writeWord, if_neg (by omega)]

end Sys2Proof.Proofs
end

section
/-! PROOFS. The statements on the encoding (`spec/30_encoding.md`): decoding and encoding undo each other, the decoder
agrees with the match and mask table, and `din` is read by two commands only. -/

namespace Sys2Proof

/-! ## Words put together again from their fields -/

variable {c : Command} {op : BitVec 8}

/-! A field put before the bits below it (`30_encoding.md` R76). -/

theorem opcodeField_append_low (c : Command) : (opcodeField c ++ c.extractLsb' 0 24 : Command) = c :=
  (BitVec.extractLsb'_append_extractLsb'_eq_extractLsb' rfl).trans BitVec.extractLsb'_eq_self

theorem firstRegField_append_low (c : Command) : regBits (firstRegField c) ++ c.extractLsb' 0 19 = c.extractLsb' 0 24 :=
  BitVec.extractLsb'_append_extractLsb'_eq_extractLsb' rfl

theorem secondRegField_append_low (c : Command) :
    regBits (secondRegField c) ++ c.extractLsb' 0 14 = c.extractLsb' 0 19 :=
  BitVec.extractLsb'_append_extractLsb'_eq_extractLsb' rfl

theorem firstByteField_append_low (c : Command) : firstByteField c ++ c.extractLsb' 0 16 = c.extractLsb' 0 24 :=
  BitVec.extractLsb'_append_extractLsb'_eq_extractLsb' rfl

theorem secondByteField_append_low (c : Command) : secondByteField c ++ c.extractLsb' 0 8 = c.extractLsb' 0 16 :=
  BitVec.extractLsb'_append_extractLsb'_eq_extractLsb' rfl

theorem zeroBits_append_offsetField {n : Nat} (hz : c.extractLsb' 16 n = 0#n) :
    0#n ++ offsetField c = c.extractLsb' 0 (n + 16) := by
  rw [← hz]
  exact BitVec.extractLsb'_append_extractLsb'_eq_extractLsb' rfl

/-- Encoding by format undoes reading the fields, where the bits the format wants zero are zero (R76, R81). -/
theorem encodeZ_fields (hop : opcodeField c = op) (hz : c.extractLsb' 0 24 = 0#24) : encodeZ op = c := by
  rw [encodeZ, ← hop, ← hz, opcodeField_append_low]

theorem encodeR1_fields (hop : opcodeField c = op) (hz : c.extractLsb' 0 19 = 0#19) :
    encodeR1 op (firstRegField c) = c := by
  rw [encodeR1, ← hop, ← hz, firstRegField_append_low, opcodeField_append_low]

theorem encodeR2_fields (hop : opcodeField c = op) (hz : c.extractLsb' 0 14 = 0#14) :
    encodeR2 op (firstRegField c) (secondRegField c) = c := by
  rw [encodeR2, ← hop, ← hz, secondRegField_append_low, firstRegField_append_low, opcodeField_append_low]

theorem encodeI1_fields (hop : opcodeField c = op) (hz : c.extractLsb' 0 16 = 0#16) :
    encodeI1 op (firstByteField c) = c := by
  rw [encodeI1, ← hop, ← hz, firstByteField_append_low, opcodeField_append_low]

theorem encodeI2_fields (hop : opcodeField c = op) (hz : c.extractLsb' 0 8 = 0#8) :
    encodeI2 op (firstByteField c) (secondByteField c) = c := by
  rw [encodeI2, ← hop, ← hz, secondByteField_append_low, firstByteField_append_low, opcodeField_append_low]

theorem encodeM_fields (hop : opcodeField c = op) (hz : c.extractLsb' 16 3 = 0#3) :
    encodeM op (firstRegField c) (offsetField c) = c := by
  rw [encodeM, ← hop, zeroBits_append_offsetField hz, firstRegField_append_low, opcodeField_append_low]

theorem encodeMO_fields (hop : opcodeField c = op) (hz : c.extractLsb' 16 8 = 0#8) :
    encodeMO op (offsetField c) = c := by
  rw [encodeMO, ← hop, zeroBits_append_offsetField hz, opcodeField_append_low]

/-! ## The rows of the opcode map -/

/-- The opcode of a row (`30_encoding.md` R86). -/
def OpcodeRow.opcode (row : OpcodeRow) : BitVec 8 := opcodeField row.pattern

/-- The mask of a format that wants the `n` bits from `lo` up zero: those bits and the opcode's (R76, R78). -/
def zeroMask (lo n : Nat) : Command := BitVec.allOnes 8 ++ (BitVec.allOnes n).setWidth 24 <<< lo

theorem OpcodeRow.spells_iff (row : OpcodeRow) (c : Command) : row.spells c = true ↔ c &&& row.mask = row.pattern :=
  beq_iff_eq

theorem opcodeAssigned_iff (c : Command) :
    opcodeAssigned c = true ↔ ∃ row ∈ opcodeTable, opcodeField c = row.opcode := by
  simp [opcodeAssigned, OpcodeRow.opcode, opcodeField]

theorem wellFormedWord_iff (c : Command) : wellFormedWord c = true ↔ ∃ row ∈ opcodeTable, row.spells c = true := by
  simp [wellFormedWord]

/-- The 27 assigned opcodes (R86). -/
theorem opcodeField_mem_of_assigned (h : opcodeAssigned c = true) :
    (opcodeField c).toNat ∈
      [0x00, 0x01, 0x02, 0x03, 0x04, 0x10, 0x20, 0x21, 0x22, 0x23, 0x30, 0x31, 0x32, 0x33, 0x40, 0x41, 0x50, 0x51,
        0x52, 0x53, 0x60, 0x61, 0x62, 0x63, 0x64, 0x65, 0x66] := by
  obtain ⟨row, hrow, hop⟩ := (opcodeAssigned_iff c).1 h
  rw [hop]
  clear hop
  revert row
  decide

/-- The 27 opcodes differ, and so do the 27 mnemonics (R78). -/
theorem row_eq_of_opcode_eq {row row' : OpcodeRow} (h : row ∈ opcodeTable) (h' : row' ∈ opcodeTable)
    (ho : row.opcode = row'.opcode) : row = row' :=
  List.inj_on_of_nodup_map (f := OpcodeRow.opcode) (by decide) h h' ho

theorem row_eq_of_mnemonic_eq {row row' : OpcodeRow} (h : row ∈ opcodeTable) (h' : row' ∈ opcodeTable)
    (hm : row.mnemonic = row'.mnemonic) : row = row' :=
  List.inj_on_of_nodup_map (f := OpcodeRow.mnemonic) (by decide) h h' hm

/-- Every row's mask keeps the whole opcode, so a word that matches a row has the row's opcode (R78). -/
theorem opcodeField_of_spells {row : OpcodeRow} (h : row ∈ opcodeTable) (hs : row.spells c = true) :
    opcodeField c = row.opcode := by
  have hmask : ∀ row ∈ opcodeTable, opcodeField row.mask = BitVec.allOnes 8 := by decide
  have hand : opcodeField (c &&& row.mask) = row.opcode := by rw [(row.spells_iff c).1 hs, OpcodeRow.opcode]
  rwa [opcodeField, BitVec.extractLsb'_and, ← opcodeField, ← opcodeField, hmask row h, BitVec.and_allOnes] at hand

theorem getLsbD_allOnes_shiftLeft {w lo n i : Nat} (hi : i < w) :
    ((BitVec.allOnes n).setWidth w <<< lo).getLsbD i = decide (lo ≤ i ∧ i < lo + n) := by
  rw [Bool.eq_iff_iff]
  simp only [BitVec.getLsbD_shiftLeft, BitVec.getLsbD_setWidth, BitVec.getLsbD_allOnes, Bool.and_eq_true,
    Bool.not_eq_true', decide_eq_true_eq, decide_eq_false_iff_not]
  omega

/-- Masking the `n` bits from `lo` up gives zero exactly if they are zero. -/
theorem and_allOnes_shiftLeft_eq_zero_iff {w lo n : Nat} (x : BitVec w) (hlen : lo + n ≤ w) :
    x &&& (BitVec.allOnes n).setWidth w <<< lo = 0#w ↔ x.extractLsb' lo n = 0#n := by
  simp only [BitVec.eq_of_getLsbD_eq_iff, BitVec.getLsbD_and, BitVec.getLsbD_extractLsb', BitVec.getLsbD_zero]
  constructor
  · intro h i hi
    have hbit := h (lo + i) (by omega)
    rw [getLsbD_allOnes_shiftLeft (by omega)] at hbit
    simpa [hi] using hbit
  · intro h i hi
    rw [getLsbD_allOnes_shiftLeft hi]
    by_cases hin : lo ≤ i ∧ i < lo + n
    · have hbit := h (i - lo) (by omega)
      rw [Nat.add_sub_cancel' hin.1] at hbit
      have hzero : x.getLsbD i = false := by simpa [show i - lo < n by omega] using hbit
      simp [hzero]
    · simp [hin]

/-- A word with the row's opcode matches a row of format `(lo, n)` exactly if the format's zero bits are zero. -/
theorem spells_zeroMask_iff {m : String} {lo n : Nat} (hop : opcodeField c = op) (hlen : lo + n ≤ 24) :
    OpcodeRow.spells ⟨m, op ++ 0#24, zeroMask lo n⟩ c = true ↔ c.extractLsb' lo n = 0#n := by
  have hmasked : c &&& zeroMask lo n = op ++ (c.extractLsb' 0 24 &&& (BitVec.allOnes n).setWidth 24 <<< lo) := by
    conv_lhs => rw [← opcodeField_append_low c, hop]
    exact Laws.masked op _ _ _ rfl
  rw [OpcodeRow.spells_iff, hmasked, ← BitVec.extractLsb'_extractLsb'_of_le hlen,
    ← and_allOnes_shiftLeft_eq_zero_iff _ hlen]
  exact BitVec.append_right_inj op

/-! ## Decoding undoes encoding -/

/-- The opcode of an encoded word is its command's, whatever the operands (R76). -/
theorem opcodeField_encodeZ (op : BitVec 8) : opcodeField (encodeZ op) = op := opcodeField_append op _
theorem opcodeField_encodeR1 (op : BitVec 8) (r : Reg) : opcodeField (encodeR1 op r) = op := opcodeField_append op _
theorem opcodeField_encodeR2 (op : BitVec 8) (rd rs : Reg) : opcodeField (encodeR2 op rd rs) = op :=
  opcodeField_append op _
theorem opcodeField_encodeI1 (op : BitVec 8) (a : Byte) : opcodeField (encodeI1 op a) = op := opcodeField_append op _
theorem opcodeField_encodeI2 (op : BitVec 8) (a b : Byte) : opcodeField (encodeI2 op a b) = op :=
  opcodeField_append op _
theorem opcodeField_encodeM (op : BitVec 8) (rd : Reg) (off : Offset) : opcodeField (encodeM op rd off) = op :=
  opcodeField_append op _
theorem opcodeField_encodeMO (op : BitVec 8) (off : Offset) : opcodeField (encodeMO op off) = op :=
  opcodeField_append op _

/-- The decoder reads each command back from its own word: the opcode picks the command's arm, and the arm's format
reads the operands the encoder wrote. The cases are the seven formats of R76. -/
theorem decode_encode (i : Instr) : decode (encode i) = .ok i := by
  cases i with
  | nop | rdst | build | bigsub | bigshr | bigmix | round | final | compress =>
    simp [decode, encode, opcodeField_encodeZ, formatZ_encodeZ]
  | ldw | rdw | subw | isubw | shrows | mixcol | kinit | knext | w2m | m2w =>
    simp [decode, encode, opcodeField_encodeR1, formatR1_encodeR1]
  | addkey | aesrnd => simp [decode, encode, opcodeField_encodeR2, formatR2_encodeR2]
  | sbox | isbox => simp [decode, encode, opcodeField_encodeI1, formatI1_encodeI1]
  | gfmul => simp [decode, encode, opcodeField_encodeI2, formatI2_encodeI2]
  | toword => simp [decode, encode, opcodeField_encodeM, formatM_encodeM]
  | stm | toblk => simp [decode, encode, opcodeField_encodeMO, formatMO_encodeMO]

/-! ## What the decoder can answer -/

/-- Everything the decoder can answer on the word `c`: no row has the word's opcode; or the word matches a row, and is
the word of a command with the row's mnemonic; or a row has its opcode, but the word does not match it (R78, R79). -/
inductive DecodeAnswer (c : Command) : Except DecodeReject Instr → Prop
  | unassigned (ho : opcodeAssigned c = false) : DecodeAnswer c (.error .unassignedOpcode)
  | spelled (row : OpcodeRow) (hrow : row ∈ opcodeTable) (hs : row.spells c = true) (i : Instr)
      (hm : i.mnemonic = row.mnemonic) (he : encode i = c) : DecodeAnswer c (.ok i)
  | zeroBitSet (row : OpcodeRow) (hrow : row ∈ opcodeTable) (ho : opcodeField c = row.opcode)
      (hs : row.spells c = false) : DecodeAnswer c (.error .mustBeZeroBitSet)

/-- A format's zero check answers as the match and mask of the format's row. -/
theorem ifZeroBits_answer {m : String} {lo n : Nat} {i : Instr} (hop : opcodeField c = op) (hlen : lo + n ≤ 24)
    (hrow : ⟨m, op ++ 0#24, zeroMask lo n⟩ ∈ opcodeTable) (hm : i.mnemonic = m)
    (he : c.extractLsb' lo n = 0#n → encode i = c) : DecodeAnswer c (ifZeroBits c lo n i) := by
  have hiff := spells_zeroMask_iff (m := m) hop hlen
  unfold ifZeroBits
  split
  · next hz => exact .spelled _ hrow (hiff.2 hz) i hm (he hz)
  · next hz => exact .zeroBitSet _ hrow (hop.trans (opcodeField_append op _).symm) (Bool.eq_false_iff.2 (hz ∘ hiff.1))

/-! Each format, for a constructor `f` whose commands the encoder writes in that format. -/

theorem formatZ_answer {i : Instr} (hop : opcodeField c = op) (hi : encode i = encodeZ op)
    (hrow : ⟨i.mnemonic, op ++ 0#24, zeroMask 0 24⟩ ∈ opcodeTable) : DecodeAnswer c (formatZ c i) :=
  ifZeroBits_answer hop (by decide) hrow rfl fun hz => hi.trans (encodeZ_fields hop hz)

theorem formatR1_answer {f : Reg → Instr} (hop : opcodeField c = op)
    (hf : ∀ r, encode (f r) = encodeR1 op r ∧ (f r).mnemonic = (f 0).mnemonic)
    (hrow : ⟨(f 0).mnemonic, op ++ 0#24, zeroMask 0 19⟩ ∈ opcodeTable) : DecodeAnswer c (formatR1 c f) :=
  ifZeroBits_answer hop (by decide) hrow (hf _).2 fun hz => (hf _).1.trans (encodeR1_fields hop hz)

theorem formatR2_answer {f : Reg → Reg → Instr} (hop : opcodeField c = op)
    (hf : ∀ rd rs, encode (f rd rs) = encodeR2 op rd rs ∧ (f rd rs).mnemonic = (f 0 0).mnemonic)
    (hrow : ⟨(f 0 0).mnemonic, op ++ 0#24, zeroMask 0 14⟩ ∈ opcodeTable) : DecodeAnswer c (formatR2 c f) :=
  ifZeroBits_answer hop (by decide) hrow (hf _ _).2 fun hz => (hf _ _).1.trans (encodeR2_fields hop hz)

theorem formatI1_answer {f : Byte → Instr} (hop : opcodeField c = op)
    (hf : ∀ a, encode (f a) = encodeI1 op a ∧ (f a).mnemonic = (f 0).mnemonic)
    (hrow : ⟨(f 0).mnemonic, op ++ 0#24, zeroMask 0 16⟩ ∈ opcodeTable) : DecodeAnswer c (formatI1 c f) :=
  ifZeroBits_answer hop (by decide) hrow (hf _).2 fun hz => (hf _).1.trans (encodeI1_fields hop hz)

theorem formatI2_answer {f : Byte → Byte → Instr} (hop : opcodeField c = op)
    (hf : ∀ a b, encode (f a b) = encodeI2 op a b ∧ (f a b).mnemonic = (f 0 0).mnemonic)
    (hrow : ⟨(f 0 0).mnemonic, op ++ 0#24, zeroMask 0 8⟩ ∈ opcodeTable) : DecodeAnswer c (formatI2 c f) :=
  ifZeroBits_answer hop (by decide) hrow (hf _ _).2 fun hz => (hf _ _).1.trans (encodeI2_fields hop hz)

theorem formatM_answer {f : Reg → Offset → Instr} (hop : opcodeField c = op)
    (hf : ∀ rd off, encode (f rd off) = encodeM op rd off ∧ (f rd off).mnemonic = (f 0 0).mnemonic)
    (hrow : ⟨(f 0 0).mnemonic, op ++ 0#24, zeroMask 16 3⟩ ∈ opcodeTable) : DecodeAnswer c (formatM c f) :=
  ifZeroBits_answer hop (by decide) hrow (hf _ _).2 fun hz => (hf _ _).1.trans (encodeM_fields hop hz)

theorem formatMO_answer {f : Offset → Instr} (hop : opcodeField c = op)
    (hf : ∀ off, encode (f off) = encodeMO op off ∧ (f off).mnemonic = (f 0).mnemonic)
    (hrow : ⟨(f 0).mnemonic, op ++ 0#24, zeroMask 16 8⟩ ∈ opcodeTable) : DecodeAnswer c (formatMO c f) :=
  ifZeroBits_answer hop (by decide) hrow (hf _).2 fun hz => (hf _).1.trans (encodeMO_fields hop hz)

theorem opcodeField_of_toNat {n : Nat} (h : (opcodeField c).toNat = n) : opcodeField c = BitVec.ofNat 8 n := by
  rw [← h, BitVec.ofNat_toNat, BitVec.setWidth_eq]

/-- The cases are the arms of `decode` in their order, put together by format: the arm's opcode and format are a row of
the table. The last is the arm of every opcode that no row has. -/
theorem decode_answer (c : Command) : DecodeAnswer c (decode c) := by
  unfold decode
  split
  case h_1 h | h_2 h | h_21 h | h_22 h | h_23 h | h_24 h | h_25 h | h_26 h | h_27 h =>
    exact formatZ_answer (opcodeField_of_toNat h) rfl (by decide)
  case h_3 h | h_4 h | h_9 h | h_10 h | h_11 h | h_12 h | h_15 h | h_16 h | h_19 h | h_20 h =>
    exact formatR1_answer (opcodeField_of_toNat h) (fun _ => ⟨rfl, rfl⟩) (by decide)
  case h_13 h | h_14 h => exact formatR2_answer (opcodeField_of_toNat h) (fun _ _ => ⟨rfl, rfl⟩) (by decide)
  case h_7 h | h_8 h => exact formatI1_answer (opcodeField_of_toNat h) (fun _ => ⟨rfl, rfl⟩) (by decide)
  case h_6 h => exact formatI2_answer (opcodeField_of_toNat h) (fun _ _ => ⟨rfl, rfl⟩) (by decide)
  case h_17 h => exact formatM_answer (opcodeField_of_toNat h) (fun _ _ => ⟨rfl, rfl⟩) (by decide)
  case h_5 h | h_18 h => exact formatMO_answer (opcodeField_of_toNat h) (fun _ => ⟨rfl, rfl⟩) (by decide)
  case h_28 => exact .unassigned (Bool.eq_false_iff.2 (mt opcodeField_mem_of_assigned (by simp_all)))

/-- A word that decodes matches the row of its command and is that command's word (R78, R81). -/
theorem decode_eq_ok {i : Instr} (h : decode c = .ok i) :
    encode i = c ∧ ∃ row ∈ opcodeTable, row.spells c = true ∧ i.mnemonic = row.mnemonic := by
  have hanswer := decode_answer c
  rw [h] at hanswer
  cases hanswer with
  | spelled row hrow hs _ hm he => exact ⟨he, row, hrow, hs, hm⟩

/-- A word that matches a row decodes to a command of that row: no other row has its opcode (R78). -/
theorem decode_of_spells {row : OpcodeRow} (hrow : row ∈ opcodeTable) (hs : row.spells c = true) :
    ∃ i, decode c = .ok i ∧ i.mnemonic = row.mnemonic := by
  have hop := opcodeField_of_spells hrow hs
  have hanswer := decode_answer c
  generalize decode c = answer at hanswer
  cases hanswer with
  | unassigned ho => exact absurd ((opcodeAssigned_iff c).2 ⟨row, hrow, hop⟩) (by simp [ho])
  | spelled row' hrow' hs' i hm _ =>
    obtain rfl := row_eq_of_opcode_eq hrow' hrow ((opcodeField_of_spells hrow' hs').symm.trans hop)
    exact ⟨i, rfl, hm⟩
  | zeroBitSet row' hrow' ho hs' =>
    obtain rfl := row_eq_of_opcode_eq hrow' hrow (ho.symm.trans hop)
    exact absurd hs (by simp [hs'])

/-- The match and mask check accepts exactly the words that decode (R78, R79). -/
theorem wellFormedWord_iff_decode (c : Command) : wellFormedWord c = true ↔ ∃ i, decode c = .ok i := by
  rw [wellFormedWord_iff]
  constructor
  · rintro ⟨row, hrow, hs⟩
    obtain ⟨i, hd, _⟩ := decode_of_spells hrow hs
    exact ⟨i, hd⟩
  · rintro ⟨i, hd⟩
    obtain ⟨_, row, hrow, hs, _⟩ := decode_eq_ok hd
    exact ⟨row, hrow, hs⟩

theorem wellFormedWord_eq_false_iff (c : Command) : wellFormedWord c = false ↔ ∃ e, decode c = .error e := by
  rw [Bool.eq_false_iff, ne_eq, wellFormedWord_iff_decode]
  cases decode c <;> simp

/-- A word whose opcode is unassigned matches no row (R79). -/
theorem wellFormedWord_of_unassigned (h : opcodeAssigned c = false) : wellFormedWord c = false := by
  refine Bool.eq_false_iff.2 fun hw => Bool.eq_false_iff.1 h ?_
  obtain ⟨row, hrow, hs⟩ := (wellFormedWord_iff c).1 hw
  exact (opcodeAssigned_iff c).2 ⟨row, hrow, opcodeField_of_spells hrow hs⟩

/-- Which of the two rejections an illegal word gets: its opcode decides (R79). -/
theorem decode_eq_error_iff (c : Command) (e : DecodeReject) :
    decode c = .error e ↔
      wellFormedWord c = false ∧ e = if opcodeAssigned c then .mustBeZeroBitSet else .unassignedOpcode := by
  rw [wellFormedWord_eq_false_iff]
  have hanswer := decode_answer c
  generalize decode c = answer at hanswer
  cases hanswer with
  | unassigned ho => simp [ho, eq_comm]
  | spelled _ _ _ i _ _ => simp
  | zeroBitSet row hrow ho _ => simp [(opcodeAssigned_iff c).2 ⟨row, hrow, ho⟩, eq_comm]

/-- 229 of the 256 opcodes are unassigned (R79). -/
theorem length_unassigned_opcodes :
    ((List.range 256).filter fun op => !opcodeAssigned (BitVec.ofNat 8 op ++ 0#24)).length = 229 := by
  decide +kernel

end Sys2Proof

namespace Sys2Proof.Machine

/-! ## What a step does with an illegal word -/

/-- An illegal word presented to a running block is fault entry with cause 1 (`60_exceptions.md` R211, R214). -/
theorem step_of_illegal {s : State} {c : Command} {d : Word} {rest : List HostInput}
    (hp : s.pending = .command c d :: rest) (hrun : s.halted = false) (hw : wellFormedWord c = false) :
    step s = .next { s with status := 0x03#8, pending := rest } := by
  obtain ⟨e, hd⟩ := (wellFormedWord_eq_false_iff c).1 hw
  have haccept : s.accept c = .illegal := by simp [State.accept, hrun, hd]
  rw [step_command s c d rest hp, haccept]
  exact congrArg _ ((State.advance_eq (s := s.raise .illegalCommand) hp).trans (by rw [State.raise, statusOfCause_eq]))

/-! ## What the host presents does not reach a command's result -/

/-- The outcome with `f` applied to its next state; a stop stays a stop. -/
def mapNext (f : State → State) : Host.Outcome State Fault Refusal → Host.Outcome State Fault Refusal
  | .next s => .next (f s)
  | .fault r => .fault r
  | .refused r => .refused r

theorem State.inMsg_withProgram (s : State) (l : List HostInput) (a n : Nat) :
    (s.withProgram l).inMsg a n = s.inMsg a n := rfl

theorem execToword_withProgram (rd : Reg) (off : Offset) (s : State) (l : List HostInput) :
    execToword rd off (s.withProgram l) = mapNext (·.withProgram l) (execToword rd off s) := by
  unfold execToword
  rw [State.inMsg_withProgram, State.withProgram_msg]
  split
  · split <;> rfl
  · rfl

theorem execToblk_withProgram (idx : Offset) (s : State) (l : List HostInput) :
    execToblk idx (s.withProgram l) = mapNext (·.withProgram l) (execToblk idx s) := by
  unfold execToblk
  rw [State.inMsg_withProgram, State.withProgram_msg]
  split
  · split <;> rfl
  · rfl

/-- A command other than `LDW` and `STM` does the same whatever the host presents, `din` with it, and leaves the host's
list as it is (`30_encoding.md` R75). -/
theorem exec_withProgram {i : Instr} (hi : i.mnemonic ≠ "LDW" ∧ i.mnemonic ≠ "STM") (s : State) (l : List HostInput) :
    exec i (s.withProgram l) = mapNext (·.withProgram l) (exec i s) := by
  cases i with
  | ldw rd => exact absurd rfl hi.1
  | stm off => exact absurd rfl hi.2
  | toword rd off => exact execToword_withProgram rd off s l
  | toblk idx => exact execToblk_withProgram idx s l
  | build => exact congrArg Host.Outcome.next (State.build_withProgram s l)
  | bigsub => exact congrArg Host.Outcome.next (State.bigsub_withProgram s l)
  | bigshr => exact congrArg Host.Outcome.next (State.bigshr_withProgram s l)
  | bigmix => exact congrArg Host.Outcome.next (State.bigmix_withProgram s l)
  | round => exact congrArg Host.Outcome.next (State.round_withProgram s l)
  | final => exact congrArg Host.Outcome.next (State.final_withProgram s l)
  | compress => exact congrArg Host.Outcome.next (State.compress_withProgram s l)
  | _ => rfl

/-- With its input consumed, the outcome holds nothing of that input. -/
theorem afterExec_mapNext_withProgram (o : Host.Outcome State Fault Refusal) (input : HostInput)
    (rest : List HostInput) :
    afterExec (mapNext (·.withProgram (input :: rest)) o) = mapNext (·.withProgram rest) o := by
  cases o <;> rfl

/-- A step on a word that spells neither `LDW` nor `STM`, written without the word's `din` (`30_encoding.md` R75). -/
theorem step_withProgram_command {c : Command}
    (hc : ∀ i, decode c = .ok i → i.mnemonic ≠ "LDW" ∧ i.mnemonic ≠ "STM") (s : State) (d : Word)
    (rest : List HostInput) :
    step (s.withProgram (.command c d :: rest)) =
      match s.accept c with
      | .discarded => .next (s.withProgram rest)
      | .illegal => .next ((s.raise .illegalCommand).withProgram rest)
      | .execute i => mapNext (·.withProgram rest) (exec i s) := by
  have haccept : (s.withProgram (.command c d :: rest)).accept c = s.accept c := rfl
  rw [step_command _ c d rest (State.withProgram_pending _ _), haccept]
  cases ha : s.accept c with
  | discarded => rfl
  | illegal => rfl
  | execute i =>
    have hi := hc i ((s.accept_eq_execute_iff c i).1 ha).2
    exact (congrArg afterExec (exec_withProgram hi s _)).trans (afterExec_mapNext_withProgram _ _ _)

end Sys2Proof.Machine

namespace Sys2Proof.Proofs

open Sys2Proof.Machine

/-- Settles O1, by the seven formats (`decode_encode`). -/
theorem decodeOfEncodeIsTheCommand : Obligations.DecodeOfEncodeIsTheCommand := by
  unfold Obligations.DecodeOfEncodeIsTheCommand
  exact decode_encode

/-- Settles O2: what the decoder can answer (`decode_answer`) is a command only where the word is that command's. -/
theorem encodeOfDecodeIsTheWord : Obligations.EncodeOfDecodeIsTheWord := by
  unfold Obligations.EncodeOfDecodeIsTheWord
  intro c i h
  exact (decode_eq_ok h).1

/-- Settles O3: a word that matches a row decodes to the row's command (`decode_of_spells`), a word that decodes matches
its command's row (`decode_eq_ok`), and the opcode and the mnemonic each pick one row. -/
theorem decodingIsByMatchAndMask : Obligations.DecodingIsByMatchAndMask := by
  unfold Obligations.DecodingIsByMatchAndMask
  refine ⟨rfl, fun row hrow c => ⟨fun hs => ?_, ?_⟩, fun row hrow row' hrow' c hs hs' => ?_,
    wellFormedWord_eq_false_iff⟩
  · exact decode_of_spells hrow ((row.spells_iff c).2 hs)
  · rintro ⟨i, hd, hm⟩
    obtain ⟨_, row', hrow', hs', hm'⟩ := decode_eq_ok hd
    obtain rfl := row_eq_of_mnemonic_eq hrow hrow' (hm.symm.trans hm')
    exact (row.spells_iff c).1 hs'
  · have ho := opcodeField_of_spells hrow ((row.spells_iff c).2 hs)
    have ho' := opcodeField_of_spells hrow' ((row'.spells_iff c).2 hs')
    exact row_eq_of_opcode_eq hrow hrow' (ho.symm.trans ho')

/-- Settles O4: the opcode decides which of the two rejections an illegal word gets (`decode_eq_error_iff`), and such a
word is fault entry (`step_of_illegal`). -/
theorem illegalWordsAreOfTwoKinds : Obligations.IllegalWordsAreOfTwoKinds := by
  unfold Obligations.IllegalWordsAreOfTwoKinds
  refine ⟨fun c => ?_, fun c => ?_, length_unassigned_opcodes, fun s c d rest => step_of_illegal⟩
  · rw [decode_eq_error_iff]
    cases ho : opcodeAssigned c with
    | false => simp [wellFormedWord_of_unassigned ho]
    | true => simp
  · rw [decode_eq_error_iff]
    cases opcodeAssigned c <;> simp

/-- Settles O21: the step can be written without `din` (`step_withProgram_command`). -/
theorem dinIsReadByLdwAndStmOnly : Obligations.DinIsReadByLdwAndStmOnly := by
  unfold Obligations.DinIsReadByLdwAndStmOnly
  intro s c d d' rest hc
  rw [step_withProgram_command hc, step_withProgram_command hc]

/-- Settles O5: each word is the encoding of its command, which the decoder reads back (`decode_encode`). -/
theorem workedEncodingsDecode : Obligations.WorkedEncodingsDecode := by
  unfold Obligations.WorkedEncodingsDecode
  exact ⟨decode_encode (.gfmul 0x57 0x83), decode_encode (.sbox 0x53), decode_encode (.ldw 16),
    decode_encode (.aesrnd 0 1), decode_encode (.addkey 31 30), decode_encode (.toword 24 112),
    decode_encode (.toblk 1), decode_encode (.stm 240), decode_encode .compress⟩

end Sys2Proof.Proofs
end

section
/-! PROOFS. The statements on the field multiplication (`spec/40_galois_field.md`): `gmul` and its polynomial form are
linear over `xor`, and a linear function is known from what it does to the powers of `x`. Then what `spelledBy` and
`onlyDout` need of a command that writes a scalar result. -/

namespace Sys2Proof.Machine

/-! ## Linear functions over `xor` -/

/-- `f` distributes over `xor`. -/
def XorLinear {m n : Nat} (f : BitVec m → BitVec n) : Prop := ∀ v w, f (v ^^^ w) = f v ^^^ f w

/-- `v` where the bit `t` is set, zero where it is not. -/
def selected {n : Nat} (t : Bool) (v : BitVec n) : BitVec n := if t then v else 0#n

theorem xor_selected {n : Nat} (t : Bool) (p v : BitVec n) : p ^^^ selected t v = if t then p ^^^ v else p := by
  cases t <;> simp [selected]

theorem selected_xor {n : Nat} (t : Bool) (v w : BitVec n) : selected t (v ^^^ w) = selected t v ^^^ selected t w := by
  cases t <;> simp [selected]

theorem selected_bit_xor {n : Nat} (t u : Bool) (v : BitVec n) :
    selected (t ^^ u) v = selected t v ^^^ selected u v := by
  cases t <;> cases u <;> simp [selected]

/-- The `xor` of two sums is the sum of the `xor`s. -/
theorem xor_xor_xor_comm {n : Nat} (p q v w : BitVec n) : (p ^^^ q) ^^^ (v ^^^ w) = (p ^^^ v) ^^^ (q ^^^ w) := by
  ac_rfl

/-- A fold splits along `xor` where each of its steps does. -/
theorem foldl_xor {n : Nat} {α : Type} {f g h : BitVec n → α → BitVec n}
    (hstep : ∀ p q i, f (p ^^^ q) i = g p i ^^^ h q i) (l : List α) (p q : BitVec n) :
    l.foldl f (p ^^^ q) = l.foldl g p ^^^ l.foldl h q := by
  induction l generalizing p q with
  | nil => rfl
  | cons i l ih => rw [List.foldl_cons, List.foldl_cons, List.foldl_cons, hstep, ih]

theorem XorLinear.map_zero {m n : Nat} {f : BitVec m → BitVec n} (hf : XorLinear f) : f 0#m = 0#n := by
  simpa using hf 0#m 0#m

/-- Taking the highest bit `k` away leaves no bit from `k` up. -/
theorem getLsbD_xor_twoPow_of_le {m k : Nat} {v : BitVec m} (hk : k < m) (hbit : v.getLsbD k = true)
    (hhigh : ∀ i, k + 1 ≤ i → v.getLsbD i = false) {i : Nat} (hi : k ≤ i) :
    (v ^^^ BitVec.twoPow m k).getLsbD i = false := by
  rw [BitVec.getLsbD_xor, BitVec.getLsbD_twoPow]
  obtain rfl | hlt := hi.eq_or_lt
  · simp [hbit, hk]
  · simp [hhigh i hlt, show k ≠ i by omega]

/-- Two linear functions that agree on the powers of `x` agree on every operand with no bit from `k` up. By induction on
`k`: the highest bit of the operand is a power of `x`, and the rest is shorter. -/
theorem XorLinear.eq_of_no_bit_from {m n : Nat} {f g : BitVec m → BitVec n} (hf : XorLinear f) (hg : XorLinear g)
    (h : ∀ i : Fin m, f (BitVec.twoPow m i) = g (BitVec.twoPow m i)) {k : Nat} (hk : k ≤ m) (v : BitVec m)
    (hv : ∀ i, k ≤ i → v.getLsbD i = false) : f v = g v := by
  induction k generalizing v with
  | zero =>
    obtain rfl : v = 0#m := BitVec.eq_of_getLsbD_eq fun i _ => by simpa using hv i i.zero_le
    rw [hf.map_zero, hg.map_zero]
  | succ k ih =>
    cases hbit : v.getLsbD k with
    | false => exact ih (by omega) v fun i hi => hi.eq_or_lt.elim (fun e => e ▸ hbit) (hv i)
    | true =>
      have hrest : f (v ^^^ BitVec.twoPow m k) = g (v ^^^ BitVec.twoPow m k) :=
        ih (by omega) _ fun i hi => getLsbD_xor_twoPow_of_le hk hbit hv hi
      have hsplit : v = (v ^^^ BitVec.twoPow m k) ^^^ BitVec.twoPow m k := by
        rw [BitVec.xor_assoc, BitVec.xor_self, BitVec.xor_zero]
      rw [hsplit, hf, hg, hrest, h ⟨k, hk⟩]

/-- Two linear functions that agree on the powers of `x` agree. -/
theorem XorLinear.ext {m n : Nat} {f g : BitVec m → BitVec n} (hf : XorLinear f) (hg : XorLinear g)
    (h : ∀ i : Fin m, f (BitVec.twoPow m i) = g (BitVec.twoPow m i)) (v : BitVec m) : f v = g v :=
  hf.eq_of_no_bit_from hg h le_rfl v (BitVec.getLsbD_of_ge v)

/-- Two products linear in each operand that agree on the powers of `x` agree. -/
theorem XorLinear.ext₂ {l m n : Nat} {f g : BitVec l → BitVec m → BitVec n}
    (hfl : ∀ b, XorLinear (f · b)) (hfr : ∀ a, XorLinear (f a)) (hgl : ∀ b, XorLinear (g · b))
    (hgr : ∀ a, XorLinear (g a))
    (h : ∀ (i : Fin l) (j : Fin m),
      f (BitVec.twoPow l i) (BitVec.twoPow m j) = g (BitVec.twoPow l i) (BitVec.twoPow m j))
    (a : BitVec l) (b : BitVec m) : f a b = g a b :=
  XorLinear.ext (hfl b) (hgl b) (fun i => XorLinear.ext (hfr _) (hgr _) (h i) b) a

/-! ## `gmul` -/

/-- Multiplication by `x` in the field: the doubling of R90. -/
def mulX (a : Byte) : Byte := (a <<< 1) ^^^ selected (a.getLsbD 7) 0x1B#8

theorem mulX_xor : XorLinear mulX := by
  intro a c
  unfold mulX
  rw [BitVec.shiftLeft_xor_distrib, BitVec.getLsbD_xor, selected_bit_xor, xor_xor_xor_comm]

theorem gmulLoop_succ (n : Nat) (p a b : Byte) :
    gmulLoop (n + 1) p a b = gmulLoop n (p ^^^ selected (b.getLsbD 0) a) (mulX a) (b >>> 1) := by
  rw [gmulLoop, mulX, xor_selected, xor_selected]

/-- With no bit of `b` left the accumulator stays. -/
theorem gmulLoop_zero (n : Nat) (p a : Byte) : gmulLoop n p a 0#8 = p := by
  induction n generalizing p a with
  | zero => rfl
  | succ n ih => simp [gmulLoop_succ, selected, ih]

theorem gmulLoop_xor_left (n : Nat) (p q a c b : Byte) :
    gmulLoop n (p ^^^ q) (a ^^^ c) b = gmulLoop n p a b ^^^ gmulLoop n q c b := by
  induction n generalizing p q a c b with
  | zero => rfl
  | succ n ih => rw [gmulLoop_succ, gmulLoop_succ, gmulLoop_succ, selected_xor, xor_xor_xor_comm, mulX_xor, ih]

theorem gmulLoop_xor_right (n : Nat) (p q a b c : Byte) :
    gmulLoop n (p ^^^ q) a (b ^^^ c) = gmulLoop n p a b ^^^ gmulLoop n q a c := by
  induction n generalizing p q a b c with
  | zero => rfl
  | succ n ih =>
    rw [gmulLoop_succ, gmulLoop_succ, gmulLoop_succ, BitVec.getLsbD_xor, selected_bit_xor, xor_xor_xor_comm,
      BitVec.ushiftRight_xor_distrib, ih]

/-- `gmul` distributes over `xor` in its first operand (R92). -/
theorem gmul_xor_left (b : Byte) : XorLinear (gmul · b) := fun a c => gmulLoop_xor_left 8 0 0 a c b

/-- `gmul` distributes over `xor` in its second operand (R92). -/
theorem gmul_xor_right (a : Byte) : XorLinear (gmul a) := fun b c => gmulLoop_xor_right 8 0 0 a b c

theorem gmul_zero (a : Byte) : gmul a 0 = 0 := gmulLoop_zero 8 0 a

/-- With only bit 0 of `b` left, one more term enters the accumulator. -/
theorem gmulLoop_one (n : Nat) (p a : Byte) : gmulLoop (n + 1) p a 1#8 = p ^^^ a :=
  (gmulLoop_succ n p a 1#8).trans (gmulLoop_zero n (p ^^^ a) (mulX a))

theorem gmul_one (a : Byte) : gmul a 1 = a := (gmulLoop_one 7 0 a).trans BitVec.zero_xor

/-- Multiplying by 2, which is `x`, is the reduced doubling (R92). -/
theorem gmul_two (a : Byte) : gmul a 2 = mulX a :=
  calc gmul a 2 = gmulLoop 7 (0#8 ^^^ selected false a) (mulX a) 1#8 := gmulLoop_succ 7 0 a 2
    _ = 0#8 ^^^ selected false a ^^^ mulX a := gmulLoop_one 6 _ (mulX a)
    _ = mulX a := by simp [selected]

/-- `gmul` is commutative (R94): it is linear in each operand, and on two powers of `x` the order does not matter. -/
theorem gmul_comm (a b : Byte) : gmul a b = gmul b a :=
  XorLinear.ext₂ (f := gmul) (g := fun a b => gmul b a) gmul_xor_left gmul_xor_right gmul_xor_right gmul_xor_left
    (by decide) a b

/-! ## The reference form -/

theorem polyProduct_xor_left (b : Byte) : XorLinear (polyProduct · b) := by
  intro a c
  refine foldl_xor (fun p q i => ?_) (List.range 8) 0 0
  simp only [← xor_selected]
  rw [BitVec.setWidth_xor, BitVec.shiftLeft_xor_distrib, selected_xor, xor_xor_xor_comm]

theorem polyProduct_xor_right (a : Byte) : XorLinear (polyProduct a) := by
  intro b c
  refine foldl_xor (fun p q i => ?_) (List.range 8) 0 0
  simp only [← xor_selected]
  rw [BitVec.getLsbD_xor, selected_bit_xor, xor_xor_xor_comm]

theorem polyRemainder_xor : XorLinear polyRemainder := by
  intro v w
  unfold polyRemainder
  rw [foldl_xor fun p q i => ?_, BitVec.setWidth_xor]
  simp only [← xor_selected]
  rw [BitVec.getLsbD_xor, selected_bit_xor, xor_xor_xor_comm]

/-- `gmul` is the polynomial product reduced modulo 0x11B (R92): both are linear in each operand, and they agree on the
64 pairs of powers of `x`. -/
theorem gmul_eq_polyRemainder (a b : Byte) : gmul a b = polyRemainder (polyProduct a b) := by
  refine XorLinear.ext₂ (f := gmul) (g := fun a b => polyRemainder (polyProduct a b)) gmul_xor_left gmul_xor_right
    (fun b a c => ?_) (fun a b c => ?_) (by decide) a b
  · exact (congrArg polyRemainder (polyProduct_xor_left b a c)).trans (polyRemainder_xor _ _)
  · exact (congrArg polyRemainder (polyProduct_xor_right a b c)).trans (polyRemainder_xor _ _)

/-! ## How a command is spelled, and a scalar result -/

/-- A command is spelled by the opcode and the zero bits that the decoder checks (`30_encoding.md` R76, R79). -/
theorem spelledBy_of_decode {op : BitVec 8} {lo n : Nat} {f : Command → Instr}
    (h : ∀ c : Command, opcodeField c = op → decode c = ifZeroBits c lo n (f c)) : spelledBy op lo n f := by
  refine ⟨fun c hop hz => ?_, fun c d rest s hop hz hrun hp => ?_⟩
  · rw [h c hop, ifZeroBits, if_pos hz]
  · have hd : decode c = .error .mustBeZeroBitSet := by rw [h c hop, ifZeroBits, if_neg hz]
    exact step_of_illegal hp hrun ((wellFormedWord_eq_false_iff c).2 ⟨_, hd⟩)

theorem State.onlyDout_writeDout (s : State) (w : Word) : onlyDout s (s.writeDout w) :=
  ⟨fun _ => rfl, rfl, rfl, fun _ => rfl, rfl, rfl, rfl⟩

/-- A scalar result in `DOUT`: the Byte in flat byte 0, zeros above it, nothing else changed (`10_state.md` R29). -/
theorem State.writeDout_zext128 (s : State) (b : Byte) :
    byteAt (s.writeDout (zext128 b)).dout 0 = b ∧
      (∀ i, 0 < i → i < 16 → byteAt (s.writeDout (zext128 b)).dout i = 0x00#8) ∧
      onlyDout s (s.writeDout (zext128 b)) :=
  ⟨byteAt_zext128_zero b, fun i hpos _ => byteAt_zext128_pos b i hpos, s.onlyDout_writeDout _⟩

end Sys2Proof.Machine

namespace Sys2Proof.Proofs

open Sys2Proof.Machine

/-- Settles O27: the opcode 0x10 picks format I2 (`spelledBy_of_decode`), and `GFMUL` writes a scalar result
(`State.writeDout_zext128`). -/
theorem gfmulWritesTheProduct : Obligations.GfmulWritesTheProduct := by
  unfold Obligations.GfmulWritesTheProduct
  refine ⟨spelledBy_of_decode fun c hop => ?_, fun a b s => ⟨_, rfl, s.writeDout_zext128 (gmul a b)⟩⟩
  rw [decode, hop]
  rfl

/-- Settles O28: the product by linearity (`gmul_eq_polyRemainder`); 2 and 3 are `x` and `x + 1`, and multiplying by `x`
is the reduced doubling (`gmul_two`). -/
theorem gmulIsThePolynomialProduct : Obligations.GmulIsThePolynomialProduct := by
  unfold Obligations.GmulIsThePolynomialProduct
  refine ⟨gmul_eq_polyRemainder, fun a => ?_, fun a => ?_, gmul_xor_right, fun a b c => gmul_xor_left c a b⟩
  · rw [gmul_comm, gmul_two]
    rfl
  · calc gmul 3 a = gmul 2 a ^^^ gmul 1 a := gmul_xor_left a 2 1
      _ = gmul 2 a ^^^ a := by rw [gmul_comm 1, gmul_one]

/-- Settles O29: with no bit of `b` left the accumulator stays (`gmul_zero`, `gmul_one`), and the product of two powers
of `x` does not depend on their order (`gmul_comm`). -/
theorem gmulLaws : Obligations.GmulLaws := by
  unfold Obligations.GmulLaws
  exact ⟨gmul_zero, gmul_one, gmul_comm⟩

end Sys2Proof.Proofs
end

section
/-! PROOFS. The statements on the S-box family (`spec/41_sbox.md`) and on the commands that undo each other: the two
tables are inverse to each other, and `SBOX` is the affine image of the inverse in the field, which is unique because
`gmul` is associative. Then what `onlyX` and a pair of commands need of a command that writes one register. -/

namespace Sys2Proof.Machine

/-! ## The tables -/

/-- `INVSBOX` undoes `SBOX`, in each of the 256 entries (R103). -/
theorem invSbox_sbox : Function.LeftInverse invSbox sbox := by
  unfold Function.LeftInverse
  decide

/-- `SBOX` undoes `INVSBOX`: a map with a left inverse on the finitely many Bytes is a bijection. -/
theorem sbox_invSbox : Function.RightInverse invSbox sbox :=
  invSbox_sbox.rightInverse_of_surjective (Finite.surjective_of_injective invSbox_sbox.injective)

/-- Substituting through `INVSBOX` undoes substituting through `SBOX` (R104). -/
theorem invSubstitute_substitute (w : Word) : invSubstitute (substitute w) = w :=
  word_ext fun i hi => by rw [byteAt_invSubstitute _ i hi, byteAt_substitute _ i hi, invSbox_sbox]

theorem substitute_invSubstitute (w : Word) : substitute (invSubstitute w) = w :=
  word_ext fun i hi => by rw [byteAt_substitute _ i hi, byteAt_invSubstitute _ i hi, sbox_invSbox]

/-! ## The inverse in the field -/

theorem XorLinear.comp {l m n : Nat} {f : BitVec m → BitVec n} {g : BitVec l → BitVec m} (hf : XorLinear f)
    (hg : XorLinear g) : XorLinear fun v => f (g v) :=
  fun v w => (congrArg f (hg v w)).trans (hf _ _)

theorem mulX_selected (t : Bool) (a : Byte) : mulX (selected t a) = selected t (mulX a) := by
  cases t with
  | false => exact mulX_xor.map_zero
  | true => rfl

/-- Multiplying accumulator and first operand by `x` multiplies the loop's result by `x`. -/
theorem gmulLoop_mulX (n : Nat) (p a b : Byte) : gmulLoop n (mulX p) (mulX a) b = mulX (gmulLoop n p a b) := by
  induction n generalizing p a b with
  | zero => rfl
  | succ n ih => rw [gmulLoop_succ, gmulLoop_succ, ← mulX_selected, ← mulX_xor, ih]

theorem gmul_mulX (b : Byte) : Function.Semiconj (gmul · b) mulX mulX := fun a => gmulLoop_mulX 8 0 a b

theorem one_gmul (a : Byte) : gmul 1 a = a := (gmul_comm 1 a).trans (gmul_one a)

theorem twoPow_eq_iterate_mulX : ∀ k : Fin 8, BitVec.twoPow 8 k = mulX^[k] 1 := by decide

/-- Multiplying by a power of `x` is doubling that often. -/
theorem twoPow_gmul (k : Fin 8) (b : Byte) : gmul (BitVec.twoPow 8 k) b = mulX^[k] b := by
  rw [twoPow_eq_iterate_mulX]
  exact ((gmul_mulX b).iterate_right k 1).trans (congrArg mulX^[k] (one_gmul b))

/-- `gmul` is associative: it is linear in its first operand, and a power of `x` there may be multiplied in first or
last. -/
theorem gmul_assoc (a b c : Byte) : gmul (gmul a b) c = gmul a (gmul b c) := by
  refine XorLinear.ext (f := fun a => gmul (gmul a b) c) ((gmul_xor_left c).comp (gmul_xor_left b))
    (gmul_xor_left (gmul b c)) (fun k => ?_) a
  calc gmul (gmul (BitVec.twoPow 8 k) b) c = gmul (mulX^[k] b) c := by rw [twoPow_gmul]
    _ = mulX^[k] (gmul b c) := (gmul_mulX c).iterate_right k b
    _ = gmul (BitVec.twoPow 8 k) (gmul b c) := (twoPow_gmul k _).symm

/-- A Byte has at most one inverse. -/
theorem gmul_inverse_unique {a v w : Byte} (hv : gmul a v = 1) (hw : gmul a w = 1) : w = v :=
  calc w = gmul (gmul v a) w := by rw [gmul_comm v, hv, one_gmul]
    _ = v := by rw [gmul_assoc, hw, gmul_one]

/-- The inverse of the affine map of R102. -/
def sboxAffineInverse (b : Byte) : Byte := b.rotateLeft 1 ^^^ b.rotateLeft 3 ^^^ b.rotateLeft 6 ^^^ 0x05

theorem sboxAffine_sboxAffineInverse : ∀ b : Byte, sboxAffine (sboxAffineInverse b) = b := by decide

/-- The entry of a non-zero Byte, taken back through the affine map, is an inverse of the Byte: the 255 entries that
R102 speaks of. -/
theorem gmul_sboxAffineInverse_sbox : ∀ a : Byte, a ≠ 0 → gmul a (sboxAffineInverse (sbox a)) = 1 := by decide

/-! ## The other Words that undo themselves -/

/-- `W2M` transposes the matrix view (`44_block_codec.md` R158, R161). -/
theorem byteAt_storeRows_wordToMatrix (w : Word) (i : Nat) (hi : i < 16) :
    byteAt (storeRows (wordToMatrix w)) i = byteAt w (4 * (i % 4) + i / 4) :=
  byteAt_wordOfBytes _ i hi

/-- `M2W` computes the same transposition as `W2M` (`44_block_codec.md` R158). -/
theorem matrixToWord_loadRows (w : Word) : matrixToWord (loadRows w) = storeRows (wordToMatrix w) := rfl

theorem storeRows_wordToMatrix_twice (w : Word) : storeRows (wordToMatrix (storeRows (wordToMatrix w))) = w :=
  word_ext fun i hi => by
    have htranspose : 4 * ((4 * (i % 4) + i / 4) % 4) + (4 * (i % 4) + i / 4) / 4 = i := by omega
    rw [byteAt_storeRows_wordToMatrix _ i hi, byteAt_storeRows_wordToMatrix _ _ (by omega), htranspose]

/-- The same key twice cancels (`42_aes_round.md` R118). -/
theorem addRoundKey_twice (w key : Word) : addRoundKey (addRoundKey w key) key = w :=
  xor_cancel_right w key

/-! ## Writing one register -/

theorem State.onlyX_writeX (s : State) (r : Reg) (v : Word) : onlyX (· = r) s (s.writeX r v) :=
  ⟨fun _ hne => s.readX_writeX_of_ne v hne, rfl, rfl, rfl, fun _ => rfl, rfl, rfl, rfl⟩

/-- Writing back what the register held undoes a write to it. -/
theorem State.writeX_writeX_readX (s : State) (r : Reg) (v : Word) : (s.writeX r v).writeX r (s.readX r) = s := by
  refine State.ext (fun q => ?_) rfl rfl rfl rfl rfl rfl rfl
  by_cases h : q = r
  · rw [h, State.readX_writeX_self]
  · rw [State.readX_writeX_of_ne _ _ h, State.readX_writeX_of_ne _ _ h]

/-- Two commands that write the same register restore the state if the second writes what the register held. -/
theorem execAll_pair_restores {i j : Instr} {s : State} {rd : Reg} {v w : Word}
    (hi : exec i s = .next (s.writeX rd v)) (hj : exec j (s.writeX rd v) = .next ((s.writeX rd v).writeX rd w))
    (hw : w = s.readX rd) : execAll [i, j] s = .next s := by
  rw [execAll_cons_of_next hi, execAll_singleton, hj, hw, State.writeX_writeX_readX]

end Sys2Proof.Machine

namespace Sys2Proof.Proofs

open Sys2Proof.Machine

/-- Settles O30: the opcodes 0x20 and 0x21 pick format I1 (`spelledBy_of_decode`), and both commands write a scalar
result (`State.writeDout_zext128`). -/
theorem sboxAndIsboxWriteTheEntry : Obligations.SboxAndIsboxWriteTheEntry := by
  unfold Obligations.SboxAndIsboxWriteTheEntry
  refine ⟨spelledBy_of_decode fun c hop => ?_, spelledBy_of_decode fun c hop => ?_,
    fun a s => ⟨_, rfl, s.writeDout_zext128 (sbox a)⟩, fun a s => ⟨_, rfl, s.writeDout_zext128 (invSbox a)⟩⟩
  · rw [decode, hop]
    rfl
  · rw [decode, hop]
    rfl

/-- Settles O31: format R1, and `byteAt_substitute` in the one register written (`State.onlyX_writeX`). -/
theorem subwSubstitutesEveryByte : Obligations.SubwSubstitutesEveryByte := by
  unfold Obligations.SubwSubstitutesEveryByte
  refine ⟨spelledBy_of_decode fun c hop => ?_, fun rd s => ⟨_, rfl, fun i hi => ?_, s.onlyX_writeX rd _⟩⟩
  · rw [decode, hop]
    rfl
  · rw [State.readX_writeX_self, byteAt_substitute _ i hi]

/-- Settles O32: format R1, and `byteAt_invSubstitute` in the one register written (`State.onlyX_writeX`). -/
theorem isubwSubstitutesEveryByte : Obligations.IsubwSubstitutesEveryByte := by
  unfold Obligations.IsubwSubstitutesEveryByte
  refine ⟨spelledBy_of_decode fun c hop => ?_, fun rd s => ⟨_, rfl, fun i hi => ?_, s.onlyX_writeX rd _⟩⟩
  · rw [decode, hop]
    rfl
  · rw [State.readX_writeX_self, byteAt_invSubstitute _ i hi]

/-- Settles O33: the inverse of `a` is its entry taken back through the affine map, and there is no other
(`gmul_inverse_unique`). -/
theorem sboxIsTheAffineImageOfTheInverse : Obligations.SboxIsTheAffineImageOfTheInverse := by
  unfold Obligations.SboxIsTheAffineImageOfTheInverse
  refine ⟨rfl, fun a ha => ⟨sboxAffineInverse (sbox a), ?_⟩⟩
  have hinv : gmul a (sboxAffineInverse (sbox a)) = 1 := gmul_sboxAffineInverse_sbox a ha
  exact ⟨hinv, fun w hw => gmul_inverse_unique hinv hw, (sboxAffine_sboxAffineInverse _).symm⟩

/-- Settles O39: in each pair the second command writes back what the register held (`execAll_pair_restores`); for
`ADDKEY` the key register, being another one, still holds the key. -/
theorem inversePairsRestore : Obligations.InversePairsRestore := by
  unfold Obligations.InversePairsRestore
  refine ⟨fun rd s => ⟨execAll_pair_restores rfl rfl ?_, execAll_pair_restores rfl rfl ?_⟩,
    fun rd s => ⟨execAll_pair_restores rfl rfl ?_, execAll_pair_restores rfl rfl ?_, execAll_pair_restores rfl rfl ?_⟩,
    fun rd rs s hne => execAll_pair_restores rfl rfl ?_⟩
  · rw [State.readX_writeX_self, invSubstitute_substitute]
  · rw [State.readX_writeX_self, substitute_invSubstitute]
  · rw [State.readX_writeX_self, matrixToWord_loadRows, storeRows_wordToMatrix_twice]
  · rw [State.readX_writeX_self, matrixToWord_loadRows, storeRows_wordToMatrix_twice]
  · rw [State.readX_writeX_self, storeRows_wordToMatrix_twice]
  · rw [State.readX_writeX_self, State.readX_writeX_of_ne _ _ hne, addRoundKey_twice]

end Sys2Proof.Proofs
end

section
/-! PROOFS. The statements on the AES round (`spec/42_aes_round.md`). The matrix view and the columns of a Word
determine it; a rotation of the rows taken four times is the identity, on the bytes of a Word and on the grid; and the
MDS combination has order 4. Then what a command does, alone and repeated, that replaces a register by a function of
it. -/

namespace Sys2Proof.Machine

/-! ## The matrix view and the columns of a Word -/

theorem matrixAt_mod_div (w : Word) (i : Nat) : matrixAt w (i % 4) (i / 4) = byteAt w i := by
  rw [matrixAt, Nat.div_add_mod]

/-- Two Words with the same matrix view are equal (`00_scope.md` R11). -/
theorem word_ext_matrix {v w : Word} (h : ∀ r c, r < 4 → c < 4 → matrixAt v r c = matrixAt w r c) : v = w :=
  word_ext fun i hi => by
    rw [← matrixAt_mod_div v, ← matrixAt_mod_div w, h _ _ (by omega) (by omega)]

theorem columnAt_wordColumn (w : Word) (c : Nat) : ∀ r < 4, columnAt (wordColumn w c) r = matrixAt w r c
  | 0, _ | 1, _ | 2, _ | 3, _ => rfl

/-- Two Words with the same columns are equal. -/
theorem word_ext_columns {v w : Word} (h : ∀ c, c < 4 → wordColumn v c = wordColumn w c) : v = w :=
  word_ext_matrix fun r c hr hc => by
    rw [← columnAt_wordColumn v c r hr, ← columnAt_wordColumn w c r hr, h c hc]

/-! ## Rotating the rows (R116, R124, `45_compressor.md` R183) -/

section RotatesRows

variable {α β : Type} {view : α → Nat → Nat → β} {f : α → α}

/-- `f` rotates row `r` of a 4 by 4 view left by `r` columns. -/
def RotatesRows (view : α → Nat → Nat → β) (f : α → α) : Prop :=
  ∀ a r c, r < 4 → c < 4 → view (f a) r c = view a r ((c + r) % 4)

/-- `n` rotations move row `r` by `n * r` columns. -/
theorem RotatesRows.iterate (hf : RotatesRows view f) (n : Nat) (a : α) {r c : Nat} (hr : r < 4) (hc : c < 4) :
    view (f^[n] a) r c = view a r ((c + n * r) % 4) := by
  induction n generalizing c with
  | zero => rw [Function.iterate_zero_apply, Nat.zero_mul, Nat.add_zero, Nat.mod_eq_of_lt hc]
  | succ n ih =>
    have hcol : ((c + r) % 4 + n * r) % 4 = (c + (n + 1) * r) % 4 := by
      rw [Nat.add_one_mul]
      omega
    rw [Function.iterate_succ_apply', hf _ r c hr hc, ih (Nat.mod_lt _ (by omega)), hcol]

/-- Four rotations leave the view as it was: `4 * r` is a multiple of 4 (R124). -/
theorem RotatesRows.iterate_four (hf : RotatesRows view f) (a : α) {r c : Nat} (hr : r < 4) (hc : c < 4) :
    view (f^[4] a) r c = view a r c := by
  rw [hf.iterate 4 a hr hc, Nat.add_mul_mod_self_left, Nat.mod_eq_of_lt hc]

end RotatesRows

theorem shiftRows_rotatesRows : RotatesRows matrixAt shiftRows := matrixAt_shiftRows

theorem shiftRows_iterate_four (w : Word) : shiftRows^[4] w = w :=
  word_ext_matrix fun _ _ hr hc => shiftRows_rotatesRows.iterate_four w hr hc

/-- Grid cell `S[r][c]`, which is `x[4c + r]` (`10_state.md` R22). -/
def State.gridAt (s : State) (r c : Nat) : Word := s.readN (4 * c + r)

theorem State.bigshr_rotatesRows : RotatesRows State.gridAt State.bigshr := by
  intro s r c hr hc
  have hcol : (4 * c + r) / 4 = c := by omega
  have hrow : (4 * c + r) % 4 = r := by omega
  rw [State.gridAt, s.readN_bigshr _ (by omega), if_pos (by omega), hcol, hrow, State.gridAt]

theorem State.readN_bigshr_of_le (s : State) {m : Nat} (hm : m < 32) (h : 16 ≤ m) : s.bigshr.readN m = s.readN m := by
  rw [s.readN_bigshr m hm, if_neg (by omega)]

theorem State.readN_bigshr_iterate_of_le (s : State) (n : Nat) {m : Nat} (hm : m < 32) (h : 16 ≤ m) :
    (State.bigshr^[n] s).readN m = s.readN m := by
  induction n with
  | zero => rfl
  | succ n ih => rw [Function.iterate_succ_apply', State.readN_bigshr_of_le _ hm h, ih]

/-- Four `BIGSHR` restore the grid, and they write nothing else (`45_compressor.md` R183). -/
theorem State.bigshr_iterate_four (s : State) : State.bigshr^[4] s = s := by
  refine State.ext (fun q => ?_) rfl rfl rfl rfl rfl rfl rfl
  rw [State.readX_eq_readN, State.readX_eq_readN]
  by_cases hq : q.val < 16
  · have hcell : 4 * (q.val / 4) + q.val % 4 = q.val := Nat.div_add_mod _ 4
    have hgrid := State.bigshr_rotatesRows.iterate_four s (r := q.val % 4) (c := q.val / 4) (by omega) (by omega)
    rwa [State.gridAt, State.gridAt, hcell] at hgrid
  · exact s.readN_bigshr_iterate_of_le 4 q.isLt (by omega)

/-! ## The MDS combination (R117, R128) -/

theorem two_gmul (a : Byte) : gmul 2 a = mulX a := (gmul_comm 2 a).trans (gmul_two a)

/-- Multiplying by 3, which is `x + 1`. -/
theorem three_gmul (a : Byte) : gmul 3 a = mulX a ^^^ a :=
  calc gmul 3 a = gmul 2 a ^^^ gmul 1 a := gmul_xor_left a 2 1
    _ = mulX a ^^^ a := by rw [two_gmul, one_gmul]

/-- The first row of the MDS matrix; the others are the same row, rotated. -/
def mdsRow (a b c d : Byte) : Byte := mulX (a ^^^ b) ^^^ (b ^^^ c ^^^ d)

theorem mds_eq (q : Column) :
    mds q = ⟨mdsRow q.a q.b q.c q.d, mdsRow q.b q.c q.d q.a, mdsRow q.c q.d q.a q.b, mdsRow q.d q.a q.b q.c⟩ := by
  simp only [mds, mdsRow, two_gmul, three_gmul, mulX_xor _ _, Column.mk.injEq]
  refine ⟨?_, ?_, ?_, ?_⟩ <;> ac_rfl

theorem byte_xor_left_comm (a b c : Byte) : a ^^^ (b ^^^ c) = b ^^^ (a ^^^ c) := by ac_rfl

theorem mdsRow_xor_next (a b c d : Byte) : mdsRow a b c d ^^^ mdsRow b c d a = mulX (a ^^^ c) ^^^ (a ^^^ b) := by
  simp only [mdsRow, mulX_xor _ _, BitVec.xor_assoc, BitVec.xor_comm, byte_xor_left_comm, xor_cancel_left]

theorem mdsRow_xor_rest (a b c d : Byte) :
    mdsRow b c d a ^^^ mdsRow c d a b ^^^ mdsRow d a b c = mulX (a ^^^ b) ^^^ a := by
  simp only [mdsRow, mulX_xor _ _, BitVec.xor_assoc, BitVec.xor_comm, byte_xor_left_comm, xor_cancel_left,
    BitVec.xor_self, BitVec.zero_xor]

/-- The first row of the square of the MDS matrix: `(x^2 + 1, 0, x^2, 0)`. -/
def mdsSquareRow (a c : Byte) : Byte := mulX (mulX (a ^^^ c)) ^^^ a

theorem mdsRow_mdsRow (a b c d : Byte) :
    mdsRow (mdsRow a b c d) (mdsRow b c d a) (mdsRow c d a b) (mdsRow d a b c) = mdsSquareRow a c := by
  rw [mdsRow, mdsRow_xor_next, mdsRow_xor_rest, mulX_xor, BitVec.xor_assoc, xor_cancel_left, mdsSquareRow]

theorem mds_mds (q : Column) :
    mds (mds q) = ⟨mdsSquareRow q.a q.c, mdsSquareRow q.b q.d, mdsSquareRow q.c q.a, mdsSquareRow q.d q.b⟩ := by
  simp only [mds_eq, mdsRow_mdsRow]

/-- The square of the MDS matrix undoes itself: it adds the same multiple of `a + c` to `a` and to `c`, so their sum
stays, and the second time that multiple cancels. -/
theorem mdsSquareRow_mdsSquareRow (a c : Byte) : mdsSquareRow (mdsSquareRow a c) (mdsSquareRow c a) = a := by
  have hsum : mdsSquareRow a c ^^^ mdsSquareRow c a = a ^^^ c := by
    rw [mdsSquareRow, mdsSquareRow, BitVec.xor_comm c a, xor_xor_xor_comm, BitVec.xor_self, BitVec.zero_xor]
  rw [mdsSquareRow, hsum, mdsSquareRow, xor_cancel_left]

/-- The MDS matrix has order 4 (R128). -/
theorem mds_iterate_four (q : Column) : mds^[4] q = q := by
  show mds (mds (mds (mds q))) = q
  rw [mds_mds, mds_mds]
  simp only [mdsSquareRow_mdsSquareRow]

/-- Four `mixcolumns` restore the Word: each column goes through four MDS combinations (R128). -/
theorem mixColumns_iterate_four (w : Word) : mixColumns^[4] w = w := by
  refine word_ext_columns fun c hc => ?_
  have hmix : Function.Semiconj (wordColumn · c) mixColumns mds := fun v => wordColumn_mixColumns v c hc
  exact (hmix.iterate_right 4 w).trans (mds_iterate_four _)

/-! ## A command that replaces a register by a function of it -/

theorem State.writeX_writeX (s : State) (r : Reg) (v w : Word) : (s.writeX r v).writeX r w = s.writeX r w := by
  refine State.ext (fun q => ?_) rfl rfl rfl rfl rfl rfl rfl
  by_cases h : q = r
  · rw [h, State.readX_writeX_self, State.readX_writeX_self]
  · rw [State.readX_writeX_of_ne _ _ h, State.readX_writeX_of_ne _ _ h, State.readX_writeX_of_ne _ _ h]

theorem State.writeX_readX (s : State) (r : Reg) : s.writeX r (s.readX r) = s := by
  rw [← s.writeX_writeX r 0, State.writeX_writeX_readX]

/-- `x[r] <- g(x[r])`: what `SUBW`, `SHROWS` and `MIXCOL` do, each with its Word function (R108, R120, R121). -/
def State.mapX (s : State) (r : Reg) (g : Word → Word) : State := s.writeX r (g (s.readX r))

theorem exec_subw (rd : Reg) (s : State) : exec (.subw rd) s = .next (s.mapX rd substitute) := rfl
theorem exec_shrows (rd : Reg) (s : State) : exec (.shrows rd) s = .next (s.mapX rd shiftRows) := rfl
theorem exec_mixcol (rd : Reg) (s : State) : exec (.mixcol rd) s = .next (s.mapX rd mixColumns) := rfl

/-- `ADDKEY` and `AESRND` are of that form too: the key is what `x[rs]` held before (R122, R123). -/
theorem exec_addkey (rd rs : Reg) (s : State) :
    exec (.addkey rd rs) s = .next (s.mapX rd (addRoundKey · (s.readX rs))) := rfl

theorem exec_aesrnd (rd rs : Reg) (s : State) :
    exec (.aesrnd rd rs) s = .next (s.mapX rd (aesRound · (s.readX rs))) := rfl

theorem State.readX_mapX_of_ne (s : State) {r q : Reg} (g : Word → Word) (h : q ≠ r) :
    (s.mapX r g).readX q = s.readX q :=
  s.readX_writeX_of_ne _ h

theorem State.mapX_mapX (s : State) (r : Reg) (f g : Word → Word) :
    (s.mapX r f).mapX r g = s.mapX r (g ∘ f) := by
  rw [State.mapX, State.mapX, State.readX_writeX_self, State.writeX_writeX, State.mapX, Function.comp_apply]

theorem State.mapX_of_fixed {s : State} {r : Reg} {g : Word → Word} (h : g (s.readX r) = s.readX r) :
    s.mapX r g = s := by
  rw [State.mapX, h, State.writeX_readX]

theorem State.mapX_iterate (s : State) (r : Reg) (g : Word → Word) (n : Nat) :
    (State.mapX · r g)^[n] s = s.mapX r g^[n] := by
  induction n with
  | zero => exact (State.mapX_of_fixed rfl).symm
  | succ n ih => rw [Function.iterate_succ_apply', ih, State.mapX_mapX, Function.iterate_succ']

/-- A command that answers a next state from every state, `n` times in a row. -/
theorem execAll_replicate {i : Instr} {f : State → State} (h : ∀ s, exec i s = .next (f s)) (n : Nat) (s : State) :
    execAll (List.replicate n i) s = .next (f^[n] s) := by
  induction n generalizing s with
  | zero => rfl
  | succ n ih => rw [List.replicate_succ, execAll_cons_of_next (h s), ih, Function.iterate_succ_apply]

/-- Replacing a register through a function of order `n`, `n` times in a row, restores the state. -/
theorem execAll_replicate_mapX_restores {i : Instr} {rd : Reg} {g : Word → Word} {n : Nat}
    (h : ∀ s, exec i s = .next (s.mapX rd g)) (hg : ∀ w, g^[n] w = w) (s : State) :
    execAll (List.replicate n i) s = .next s := by
  rw [execAll_replicate h, State.mapX_iterate, State.mapX_of_fixed (hg _)]

/-- `AESRND` is the four commands in a row: `SUBW`, `SHROWS` and `MIXCOL` do not touch the key, which stands in another
register (R123). -/
theorem exec_aesrnd_eq_execAll {rd rs : Reg} (hne : rs ≠ rd) (s : State) :
    exec (.aesrnd rd rs) s = execAll [.subw rd, .shrows rd, .mixcol rd, .addkey rd rs] s := by
  rw [execAll_cons_of_next (exec_subw rd s), execAll_cons_of_next (exec_shrows rd _),
    execAll_cons_of_next (exec_mixcol rd _), execAll_singleton, exec_addkey, State.readX_mapX_of_ne _ _ hne,
    State.readX_mapX_of_ne _ _ hne, State.readX_mapX_of_ne _ _ hne, State.mapX_mapX, State.mapX_mapX,
    State.mapX_mapX, exec_aesrnd]
  rfl

end Sys2Proof.Machine

namespace Sys2Proof.Proofs

open Sys2Proof.Machine

/-- Settles O34: format R1, and `matrixAt_shiftRows` in the one register written (`State.onlyX_writeX`). -/
theorem shrowsRotatesTheRows : Obligations.ShrowsRotatesTheRows := by
  unfold Obligations.ShrowsRotatesTheRows
  refine ⟨spelledBy_of_decode fun c hop => ?_, fun rd s => ⟨_, rfl, fun r c hr hc => ?_, s.onlyX_writeX rd _⟩⟩
  · rw [decode, hop]
    rfl
  · rw [State.readX_writeX_self]
    exact matrixAt_shiftRows _ r c hr hc

/-- Settles O35: format R1, and the four entries of `wordColumn_mixColumns` in the one register written. -/
theorem mixcolMixesEveryColumn : Obligations.MixcolMixesEveryColumn := by
  unfold Obligations.MixcolMixesEveryColumn
  refine ⟨spelledBy_of_decode fun c hop => ?_, fun rd s => ⟨_, rfl, s.onlyX_writeX rd _, ?_⟩⟩
  · rw [decode, hop]
    rfl
  · rintro c hc a b p q rfl rfl rfl rfl
    rw [State.readX_writeX_self]
    have hcol := wordColumn_mixColumns (s.readX rd) c hc
    exact ⟨congrArg Column.a hcol, congrArg Column.b hcol, congrArg Column.c hcol, congrArg Column.d hcol⟩

/-- Settles O36: format R2, and `byteAt_addRoundKey` in the one register written; a Word exclusive-or itself is zero. -/
theorem addkeyXorsTheKey : Obligations.AddkeyXorsTheKey := by
  unfold Obligations.AddkeyXorsTheKey
  refine ⟨spelledBy_of_decode fun c hop => ?_, fun rd rs s => ⟨_, rfl, s.onlyX_writeX rd _, fun i _ => ?_, ?_⟩⟩
  · rw [decode, hop]
    rfl
  · rw [State.readX_writeX_self, byteAt_addRoundKey]
  · rintro rfl
    rw [State.readX_writeX_self, addRoundKey, BitVec.xor_self]

/-- Settles O37: format R2, `aesround` in the one register written, and the four commands composed
(`exec_aesrnd_eq_execAll`). -/
theorem aesrndIsOneFullRound : Obligations.AesrndIsOneFullRound := by
  unfold Obligations.AesrndIsOneFullRound
  refine ⟨spelledBy_of_decode fun c hop => ?_, fun rd rs s => ⟨_, rfl, s.onlyX_writeX rd _, ?_⟩,
    fun rd rs s hne => exec_aesrnd_eq_execAll hne s⟩
  · rw [decode, hop]
    rfl
  · rw [State.readX_writeX_self, aesRound]

/-- Settles O38: `shiftrows`, `mixcolumns` and `BIGSHR` have order 4 (`shiftRows_iterate_four`,
`mixColumns_iterate_four`, `State.bigshr_iterate_four`). -/
theorem fourRotationsRestore : Obligations.FourRotationsRestore := by
  unfold Obligations.FourRotationsRestore
  refine ⟨fun rd => execAll_replicate_mapX_restores (exec_shrows rd) shiftRows_iterate_four,
    fun rd => execAll_replicate_mapX_restores (exec_mixcol rd) mixColumns_iterate_four, fun s => ?_⟩
  rw [execAll_replicate (f := State.bigshr) (fun _ => rfl), State.bigshr_iterate_four]

end Sys2Proof.Proofs
end

section
/-! PROOFS. The statements on the key schedule (`spec/43_key_schedule.md`): the key after any number of advances,
what `nextprimarykey` returns after that many calls, and what a command leaves unchanged that writes `K`. -/

namespace Sys2Proof.Machine

/-! ## Any number of advances of the key (R142, R145) -/

/-- Byte 0 counts the advances modulo 256; `byteAt_iterate_keyAdvanced` is about the other bytes. -/
theorem byteAt_zero_iterate_keyAdvanced (n : Nat) (key : Word) :
    byteAt (keyAdvanced^[n] key) 0 = byteAt key 0 + BitVec.ofNat 8 n := by
  induction n with
  | zero => exact (BitVec.add_zero _).symm
  | succ n ih =>
    rw [Function.iterate_succ_apply', byteAt_keyAdvanced _ _ (by omega), if_pos rfl, ih, BitVec.add_assoc,
      BitVec.ofNat_add]
    rfl

/-- The count in byte 0 comes round after 256 advances, and no other byte has moved: there is no carry. -/
theorem keyAdvanced_iterate_period (key : Word) : keyAdvanced^[256] key = key := by
  refine word_ext fun i hi => ?_
  rcases Nat.eq_zero_or_pos i with rfl | hpos
  · rw [byteAt_zero_iterate_keyAdvanced]
    exact BitVec.add_zero _
  · exact byteAt_iterate_keyAdvanced 256 key hpos hi

/-- What the next call of `nextprimarykey` returns after `n` calls: the key advanced `n` times. -/
theorem State.nextPrimaryKey_iterate_fst (s : State) (n : Nat) :
    ((fun u : State => u.nextPrimaryKey.2)^[n] s).nextPrimaryKey.1 = keyAdvanced^[n] s.k := by
  have hadvance : Function.Semiconj State.k (fun u : State => u.nextPrimaryKey.2) keyAdvanced := fun _ => rfl
  exact hadvance.iterate_right n s

/-! ## Writing the key -/

/-- A command that may write the registers in `W` still leaves the rest unchanged if it writes `K` first. -/
theorem onlyXK_of_onlyX_withK {W : Reg → Prop} {s t : State} {key : Word} (h : onlyX W (s.withK key) t) :
    onlyXK W s t := by
  obtain ⟨hx, -, hstatus, hdout, hmsg, hown⟩ := h
  exact ⟨hx, hstatus, hdout, hmsg, hown⟩

theorem State.onlyXK_withK (s : State) (key : Word) : onlyXK (fun _ => False) s (s.withK key) :=
  ⟨fun _ _ => rfl, rfl, rfl, fun _ => rfl, rfl, rfl, rfl⟩

end Sys2Proof.Machine

namespace Sys2Proof.Proofs

open Sys2Proof.Machine

/-- Settles O40: format R1, and the one field written is `K` (`State.onlyXK_withK`). -/
theorem kinitLoadsTheKey : Obligations.KinitLoadsTheKey := by
  unfold Obligations.KinitLoadsTheKey
  refine ⟨spelledBy_of_decode fun c hop => ?_, fun rs s => ⟨_, rfl, s.withK_k _, s.onlyXK_withK _⟩⟩
  rw [decode, hop]
  rfl

/-- Settles O41: format R1; the command advances `K` (`byteAt_keyAdvanced`), then writes the key from before the advance
to one register (`State.onlyX_writeX`). -/
theorem knextReturnsThenAdvances : Obligations.KnextReturnsThenAdvances := by
  unfold Obligations.KnextReturnsThenAdvances
  refine ⟨spelledBy_of_decode fun c hop => ?_, fun rd s =>
    ⟨(s.withK (keyAdvanced s.k)).writeX rd s.k, rfl, State.readX_writeX_self _ rd _, ?_, fun i hpos hi => ?_,
      onlyXK_of_onlyX_withK (State.onlyX_writeX _ rd _)⟩⟩
  · rw [decode, hop]
    rfl
  · rw [State.writeX_k, State.withK_k, byteAt_keyAdvanced _ _ (by omega), if_pos rfl]
  · rw [State.writeX_k, State.withK_k, byteAt_keyAdvanced _ _ hi, if_neg (by omega)]

/-- Settles O42: the `n`-th key is `K` advanced `n` times (`State.nextPrimaryKey_iterate_fst`), read byte by byte; 256
advances restore it (`keyAdvanced_iterate_period`). -/
theorem keySequence : Obligations.KeySequence := by
  unfold Obligations.KeySequence
  intro s n
  rw [State.nextPrimaryKey_iterate_fst, State.nextPrimaryKey_iterate_fst]
  refine ⟨byteAt_zero_iterate_keyAdvanced n s.k, fun i hpos hi => byteAt_iterate_keyAdvanced n s.k hpos hi, ?_⟩
  rw [Function.iterate_add_apply, keyAdvanced_iterate_period]

end Sys2Proof.Proofs
end

section
/-! PROOFS. The statements on the block codec (`spec/44_block_codec.md`): the two reads of `MSG`, in range and out of
it, and the transposition of a register's bytes. -/

namespace Sys2Proof.Machine

/-! ## Written ranges and the range check -/

theorem Memory.written_iff_read_ne_none (m : Memory) (a n : Nat) :
    m.written a n = true ↔ ∀ i, i < n → m.read (a + i) ≠ none := by
  simp [Memory.written_iff, Option.ne_none_iff_exists']

/-- A range inside a written one is written. -/
theorem Memory.written_mono {m : Memory} {a n b k : Nat} (h : m.written a n = true) (hle : a ≤ b)
    (hend : b + k ≤ a + n) : m.written b k = true := by
  refine (Memory.written_iff m b k).2 fun i hi => ?_
  have hread := (Memory.written_iff m a n).1 h (b + i - a) (by omega)
  rwa [show a + (b + i - a) = b + i by omega] at hread

theorem State.inMsg_eq_false_iff (s : State) (a n : Nat) : s.inMsg a n = false ↔ s.msgBytes < a + n := by
  rw [← Bool.not_eq_true, State.inMsg_iff, Nat.not_le]

/-! ## `TOWORD` and `TOBLK` out of range (R159, R160) -/

/-- `TOWORD` out of range is fault entry (`20_memory.md` R56). -/
theorem exec_toword_outside (rd : Reg) {off : Offset} {s : State} (hr : s.inMsg (byteOffset off) 16 = false) :
    exec (.toword rd off) s = .next (s.raise .addressRange) := by
  show execToword rd off s = _
  rw [execToword, hr, if_neg Bool.false_ne_true]

/-- `TOBLK` out of range is fault entry (`20_memory.md` R56). -/
theorem exec_toblk_outside {idx : Offset} {s : State} (hr : s.inMsg (blockOffset idx) 128 = false) :
    exec (.toblk idx) s = .next (s.raise .addressRange) := by
  show execToblk idx s = _
  rw [execToblk, hr, if_neg Bool.false_ne_true]

/-! ## What a bank write and fault entry leave unchanged -/

theorem onlyX.mono {V W : Reg → Prop} {s t : State} (h : onlyX V s t) (hVW : ∀ r, V r → W r) : onlyX W s t := by
  obtain ⟨hx, hrest⟩ := h
  exact ⟨fun r hr => hx r (mt (hVW r) hr), hrest⟩

theorem State.onlyX_writeBank (s : State) (b n : Nat) (f : Nat → Word) :
    onlyX (fun r => b ≤ r.val ∧ r.val < b + n) s (s.writeBank b n f) :=
  ⟨fun r hr => by rw [State.readX_writeBank, if_neg hr], rfl, rfl, rfl, fun _ => rfl, rfl, rfl, rfl⟩

theorem State.onlyStatus_raise (s : State) (c : Cause) : onlyStatus (statusOfCause c) s (s.raise c) :=
  ⟨rfl, fun _ => rfl, rfl, rfl, fun _ => rfl, rfl, rfl, rfl⟩

/-! ## `M2W` (R162) -/

/-- `M2W` by row and column; `byteAt_storeRows_wordToMatrix` is `W2M` by flat index. -/
theorem byteAt_matrixToWord_loadRows (w : Word) {r c : Nat} (hr : r < 4) (hc : c < 4) :
    byteAt (matrixToWord (loadRows w)) (4 * c + r) = byteAt w (4 * r + c) := by
  rw [matrixToWord_loadRows, byteAt_storeRows_wordToMatrix _ _ (by omega), show (4 * c + r) % 4 = r by omega,
    show (4 * c + r) / 4 = c by omega]

end Sys2Proof.Machine

namespace Sys2Proof.Proofs

open Sys2Proof.Machine

/-- Settles O43: format M; in range and written the register holds the Word whose bytes are those of `MSG`
(`Memory.read_eq_byteAt_wordAt`); out of range the command is fault entry (`exec_toword_outside`). -/
theorem towordCopiesSixteenBytes : Obligations.TowordCopiesSixteenBytes := by
  unfold Obligations.TowordCopiesSixteenBytes
  refine ⟨spelledBy_of_decode fun c hop => ?_, fun rd off s hin hread => ?_, fun rd off s hout => ?_⟩
  · rw [decode, hop]
    rfl
  · have hw : s.msg.written (byteOffset off) 16 = true := (Memory.written_iff_read_ne_none _ _ _).2 hread
    refine ⟨_, (exec_toword_inMsg rd ((s.inMsg_iff _ _).2 hin)).trans (if_pos hw), s.onlyX_writeX rd _,
      fun i hi => ?_⟩
    rw [State.readX_writeX_self]
    exact (Memory.read_eq_byteAt_wordAt hw i hi).symm
  · exact ⟨_, exec_toword_outside rd ((s.inMsg_eq_false_iff _ _).2 hout), s.onlyStatus_raise .addressRange⟩

/-- Settles O44: format MO; in range and written the bank holds Words whose bytes are those of `MSG`
(`Memory.read_eq_byteAt_wordAt`), and only the bank is written (`State.onlyX_writeBank`); out of range the command is
fault entry (`exec_toblk_outside`). -/
theorem toblkCopiesOneBlock : Obligations.ToblkCopiesOneBlock := by
  unfold Obligations.ToblkCopiesOneBlock
  refine ⟨spelledBy_of_decode fun c hop => ?_, fun idx s hin hread => ?_, fun idx s hout => ?_⟩
  · rw [decode, hop]
    rfl
  · have hw : s.msg.written (blockOffset idx) 128 = true := (Memory.written_iff_read_ne_none _ _ _).2 hread
    refine ⟨_, (exec_toblk_inMsg ((s.inMsg_iff _ _).2 hin)).trans (if_pos hw),
      (s.onlyX_writeBank 24 8 _).mono fun _ ⟨hlow, _⟩ => hlow,
      fun j k hj hk => ?_⟩
    have hword : s.msg.written (blockOffset idx + 16 * j) 16 = true := Memory.written_mono hw (by omega) (by omega)
    rw [State.readN_writeBank_of_mem _ _ _ _ _ (by omega) (by omega), Nat.add_sub_cancel_left]
    exact (Memory.read_eq_byteAt_wordAt hword k hk).symm
  · exact ⟨_, exec_toblk_outside ((s.inMsg_eq_false_iff _ _).2 hout), s.onlyStatus_raise .addressRange⟩

/-- Settles O47: format R1 for both; the one register written holds the transposed bytes, for `W2M` by flat index
(`byteAt_storeRows_wordToMatrix`), for `M2W` by row and column (`byteAt_matrixToWord_loadRows`). -/
theorem matrixCommandsTranspose : Obligations.MatrixCommandsTranspose := by
  unfold Obligations.MatrixCommandsTranspose
  refine ⟨spelledBy_of_decode fun c hop => ?_, spelledBy_of_decode fun c hop => ?_,
    fun rd s => ⟨_, rfl, s.onlyX_writeX rd _, fun k hk => ?_⟩,
    fun rd s => ⟨_, rfl, s.onlyX_writeX rd _, fun r c hr hc => ?_⟩⟩
  · rw [decode, hop]
    rfl
  · rw [decode, hop]
    rfl
  · rw [State.readX_writeX_self, byteAt_storeRows_wordToMatrix _ k hk]
  · rw [State.readX_writeX_self, byteAt_matrixToWord_loadRows _ hr hc]

end Sys2Proof.Proofs
end

section
/-! PROOFS. The statements on the Compressor (`spec/45_compressor.md`): what each bank command computes, cell by cell,
and that a round and `COMPRESS` only compose them. The frames compose too (`onlyXK.trans`), and the old grid has no
influence because `BUILD` overwrites it and every later command keeps two runs in agreement (`AgreeOnInputs`). -/

namespace Sys2Proof.Machine

/-! ## What a command leaves unchanged -/

/-- A bank write within the grid, x0..x15 (`10_state.md` R22). -/
theorem State.onlyX_writeBank_grid (s : State) (f : Nat → Word) :
    onlyX (fun r => r.val < 16) s (s.writeBank 0 16 f) :=
  (s.onlyX_writeBank 0 16 f).mono fun _ ⟨_, hlt⟩ => by omega

theorem State.onlyX_build (s : State) : onlyX (fun r => r.val < 16) s s.build := s.onlyX_writeBank_grid _

theorem State.onlyX_bigshr (s : State) : onlyX (fun r => r.val < 16) s s.bigshr := s.onlyX_writeBank_grid _

theorem State.onlyX_bigmix (s : State) : onlyX (fun r => r.val < 16) s s.bigmix := s.onlyX_writeBank_grid _

/-- `FINAL` writes V, x16..x23 (R190). -/
theorem State.onlyX_final (s : State) : onlyX (fun r => 16 ≤ r.val ∧ r.val < 24) s s.final :=
  s.onlyX_writeBank 16 8 _

theorem onlyX.onlyXK {W : Reg → Prop} {s t : State} (h : onlyX W s t) : onlyXK W s t :=
  onlyXK_of_onlyX_withK (key := s.k) h

theorem onlyXK.mono {V W : Reg → Prop} {s t : State} (h : onlyXK V s t) (hVW : ∀ r, V r → W r) : onlyXK W s t := by
  obtain ⟨hx, hrest⟩ := h
  exact ⟨fun r hr => hx r (mt (hVW r) hr), hrest⟩

theorem onlyXK.refl (W : Reg → Prop) (s : State) : onlyXK W s s :=
  ⟨fun _ _ => rfl, rfl, rfl, fun _ => rfl, rfl, rfl, rfl⟩

/-- Two commands in a row leave unchanged what both leave unchanged. -/
theorem onlyXK.trans {W : Reg → Prop} {s t u : State} (h : onlyXK W s t) (h' : onlyXK W t u) : onlyXK W s u := by
  obtain ⟨hx, hstatus, hdout, hmsg, hparams, hpending, hfree⟩ := h
  obtain ⟨hx', hstatus', hdout', hmsg', hparams', hpending', hfree'⟩ := h'
  exact ⟨fun r hr => (hx' r hr).trans (hx r hr), hstatus'.trans hstatus, hdout'.trans hdout,
    fun a => (hmsg' a).trans (hmsg a), hparams'.trans hparams, hpending'.trans hpending, hfree'.trans hfree⟩

/-- `BIGSUB` writes the grid and `K` (R181). -/
theorem State.onlyXK_bigsub (s : State) : onlyXK (fun r => r.val < 16) s s.bigsub := by
  obtain ⟨hread, _, hstatus, hdout, hmsg, hown⟩ := s.bigsub_spec
  refine ⟨fun r hr => ?_, hstatus, hdout, fun a => by rw [hmsg], hown⟩
  rw [State.readX_eq_readN, State.readX_eq_readN, hread r.val r.isLt, if_neg hr]

/-- A round writes the grid and `K` (R188). -/
theorem State.onlyXK_round (s : State) : onlyXK (fun r => r.val < 16) s s.round :=
  (s.onlyXK_bigsub.trans s.bigsub.onlyX_bigshr.onlyXK).trans s.bigsub.bigshr.onlyX_bigmix.onlyXK

theorem State.onlyXK_rounds (s : State) (n : Nat) : onlyXK (fun r => r.val < 16) s (s.rounds n) := by
  induction n with
  | zero => exact onlyXK.refl _ s
  | succ n ih => exact ih.trans (State.onlyXK_round _)

/-- `COMPRESS` writes the grid, V and `K` (R192). -/
theorem State.onlyXK_compress (s : State) : onlyXK (fun r => r.val < 24) s s.compress := by
  have hgrid := s.onlyX_build.onlyXK.trans (s.build.onlyXK_rounds 10)
  have hchain := (s.build.rounds 10).onlyX_final.onlyXK
  exact (hgrid.mono fun _ hr => by omega).trans (hchain.mono fun _ ⟨_, hr⟩ => hr)

/-- What `n` advances of `K` leave of it, byte by byte (`43_key_schedule.md` R145). -/
theorem byteAt_of_eq_iterate_keyAdvanced {key key' : Word} {n : Nat} (h : key' = keyAdvanced^[n] key) :
    byteAt key' 0 = byteAt key 0 + BitVec.ofNat 8 n ∧ ∀ i, 0 < i → i < 16 → byteAt key' i = byteAt key i := by
  rw [h]
  exact ⟨byteAt_zero_iterate_keyAdvanced n key, fun _ hpos hi => byteAt_iterate_keyAdvanced n key hpos hi⟩

/-! ## `BUILD` (R178, R179) -/

/-- Below cell 14 the switch `GRID_W67` has no say. -/
theorem State.readN_build_of_lt_fourteen (s : State) {m : Nat} (hm : m < 14) : s.build.readN m = s.readN (16 + m) := by
  rw [s.readN_build m (by omega), if_pos (by omega), if_neg fun ⟨_, h⟩ => by omega]

theorem State.readN_build_of_per46 {s : State} (h : s.params.gridW67 = .per46) {m : Nat} (hm : m < 16) :
    s.build.readN m = s.readN (16 + m) := by
  rw [s.readN_build m (by omega), if_pos hm, if_neg fun ⟨hdefect, _⟩ => by cases h.symm.trans hdefect]

theorem State.readN_build_of_sourceDefect {s : State} (h : s.params.gridW67 = .sourceDefect) {m : Nat}
    (hm : m = 14 ∨ m = 15) : s.build.readN m = s.readN 29 := by
  rw [s.readN_build m (by omega), if_pos (by omega), if_pos ⟨h, hm⟩]

/-! ## The order of `BIGSUB` (R180, R181) -/

/-- Column by column, cell `n` is the `n`-th. -/
theorem idxOf_subwordCells_columnMajor : ∀ n < 16, (subwordCells .columnMajor).idxOf n = n := by decide

/-- Row by row, the cell in row `n mod 4` and column `n div 4` comes after four cells for each row before its own. -/
theorem idxOf_subwordCells_rowMajor : ∀ n < 16, (subwordCells .rowMajor).idxOf n = 4 * (n % 4) + n / 4 := by decide

/-- The key of cell `n`: `K` advanced once for each cell before it in the order (R181). -/
def State.cellKey (s : State) (n : Nat) : Word := keyAdvanced^[(subwordCells s.params.subwordOrder).idxOf n] s.k

theorem State.readN_bigsub (s : State) {n : Nat} (hn : n < 16) :
    s.bigsub.readN n = perWordRound s.params.perwordMix
      (perWordRound s.params.perwordMix (s.readN n) (s.cellKey n)) s.params.salt := by
  rw [s.bigsub_spec.1 n (by omega), if_pos hn, State.cellKey]

/-! ## `BIGMIX` (R185, R186) -/

theorem columnAt_gridColumn (s : State) (c b : Nat) : ∀ r < 4, columnAt (s.gridColumn c b) r = byteAt (s.gridAt r c) b
  | 0, _ | 1, _ | 2, _ | 3, _ => rfl

theorem columnAt_gridRow (s : State) (r b : Nat) : ∀ c < 4, columnAt (s.gridRow r b) c = byteAt (s.gridAt r c) b
  | 0, _ => by rw [State.gridAt, Nat.mul_zero, Nat.zero_add]; rfl
  | 1, _ | 2, _ | 3, _ => rfl

theorem column_ext {p q : Column} (h : ∀ r < 4, columnAt p r = columnAt q r) : p = q := by
  cases p
  cases q
  exact (Column.mk.injEq ..).mpr ⟨h 0 (by omega), h 1 (by omega), h 2 (by omega), h 3 (by omega)⟩

/-- Under the column axis, at every byte index, each grid column becomes its MDS combination (R185). -/
theorem State.gridColumn_bigmix {s : State} (h : s.params.bigmixAxis = .column) {c b : Nat} (hc : c < 4)
    (hb : b < 16) : s.bigmix.gridColumn c b = mds (s.gridColumn c b) := by
  refine column_ext fun r hr => ?_
  rw [columnAt_gridColumn _ c b r hr, State.gridAt, s.readN_bigmix _ (by omega), if_pos (by omega),
    byteAt_wordOfBytes _ _ hb, h, show (4 * c + r) / 4 = c by omega, show (4 * c + r) % 4 = r by omega]

/-- Under the row axis, at every byte index, each grid row becomes its MDS combination (R186). -/
theorem State.gridRow_bigmix {s : State} (h : s.params.bigmixAxis = .row) {r b : Nat} (hr : r < 4) (hb : b < 16) :
    s.bigmix.gridRow r b = mds (s.gridRow r b) := by
  refine column_ext fun c hc => ?_
  rw [columnAt_gridRow _ r b c hc, State.gridAt, s.readN_bigmix _ (by omega), if_pos (by omega),
    byteAt_wordOfBytes _ _ hb, h, show (4 * c + r) / 4 = c by omega, show (4 * c + r) % 4 = r by omega]

/-! ## `FINAL` (R190) -/

theorem State.readN_final_chain (s : State) {i : Nat} (hi : i < 8) :
    s.final.readN (16 + i) = s.readN (16 + i) ^^^ s.readN (24 + i) ^^^ s.readN i ^^^ s.readN (i + 8) := by
  rw [s.readN_final _ (by omega), if_pos (by omega), show 16 + i + 8 = 24 + i by omega,
    show 16 + i - 16 = i by omega, show 16 + i - 8 = i + 8 by omega]

theorem State.readN_final_grid (s : State) {m : Nat} (hm : m < 16) : s.final.readN m = s.readN m := by
  rw [s.readN_final m (by omega), if_neg (by omega)]

/-- The `(j, l)` form of R190: the two grid words of its row are cells `i` and `i + 8`. -/
theorem finalCells_eq {i j l : Nat} (hi : i < 8) (h : (j, l) = if i < 4 then (0, 2) else (1, 3)) :
    4 * j + i % 4 = i ∧ 4 * l + i % 4 = i + 8 := by
  split at h <;> cases h <;> omega

/-! ## Sequences of commands (R188, R192) -/

theorem State.rounds_eq_iterate (s : State) (n : Nat) : s.rounds n = State.round^[n] s := by
  induction n with
  | zero => rfl
  | succ n ih => rw [Function.iterate_succ_apply', ← ih, State.rounds]

theorem execAll_roundCommands (s : State) : execAll [.bigsub, .bigshr, .bigmix] s = .next s.round := by
  rw [execAll_cons_of_next (t := s.bigsub) rfl, execAll_cons_of_next (t := s.bigsub.bigshr) rfl, execAll_singleton]
  rfl

/-- A sequence that answers a next state from every state, `n` times in a row. -/
theorem execAll_flatten_replicate {is : List Instr} {f : State → State} (h : ∀ s, execAll is s = .next (f s)) (n : Nat)
    (s : State) : execAll (List.replicate n is).flatten s = .next (f^[n] s) := by
  induction n generalizing s with
  | zero => rfl
  | succ n ih =>
    rw [List.replicate_succ, List.flatten_cons, execAll_append_of_next (h s), ih, Function.iterate_succ_apply]

/-- `BUILD`, whatever makes the ten rounds, and `FINAL` are `COMPRESS` (R192). -/
theorem execAll_build_rounds_final {is : List Instr} (h : ∀ s, execAll is s = .next (State.round^[10] s)) (s : State) :
    execAll ([.build] ++ is ++ [.final]) s = .next s.compress := by
  have hbuild : execAll [.build] s = .next s.build := execAll_singleton .build s
  rw [List.append_assoc, execAll_append_of_next hbuild, execAll_append_of_next (h s.build), execAll_singleton,
    State.compress, State.rounds_eq_iterate]
  rfl

/-- What `COMPRESS` leaves in V: the old V and Block, folded with the grid it leaves (R190, R192). -/
theorem State.readN_compress_chain (s : State) {i : Nat} (hi : i < 8) :
    s.compress.readN (16 + i) =
      s.readN (16 + i) ^^^ s.readN (24 + i) ^^^ s.compress.readN i ^^^ s.compress.readN (i + 8) := by
  have hkept : ∀ m, m < 32 → 16 ≤ m → (s.build.rounds 10).readN m = s.readN m := by
    obtain ⟨_, _, _, _, _, _, _, hrounds⟩ := s.build.rounds_fields 10
    intro m hm h
    rw [hrounds m hm h, s.readN_build m hm, if_neg (by omega)]
  rw [State.compress, State.readN_final_chain _ hi, State.readN_final_grid _ (by omega),
    State.readN_final_grid _ (by omega), hkept _ (by omega) (by omega), hkept _ (by omega) (by omega)]

/-! ## Two runs in agreement (R175, R192) -/

/-- Two states that agree on everything the compressor's commands read. -/
structure AgreeOnInputs (s t : State) : Prop where
  x : s.x = t.x
  k : s.k = t.k
  params : s.params = t.params

section AgreeOnInputs

variable {s t : State}

theorem AgreeOnInputs.readX (h : AgreeOnInputs s t) (r : Reg) : s.readX r = t.readX r := by
  rw [State.readX, h.x, State.readX]

theorem AgreeOnInputs.readN (h : AgreeOnInputs s t) : s.readN = t.readN :=
  funext fun n => h.readX (regOf n)

theorem AgreeOnInputs.writeBank (h : AgreeOnInputs s t) (b n : Nat) {f g : Nat → Word} (hfg : f = g) :
    AgreeOnInputs (s.writeBank b n f) (t.writeBank b n g) where
  x := State.x_ext fun r => by rw [State.readX_writeBank, State.readX_writeBank, hfg, h.readX]
  k := h.k
  params := h.params

theorem AgreeOnInputs.bigsub (h : AgreeOnInputs s t) : AgreeOnInputs s.bigsub t.bigsub := by
  obtain ⟨hread, hk, _, _, _, hparams, _⟩ := s.bigsub_spec
  obtain ⟨hread', hk', _, _, _, hparams', _⟩ := t.bigsub_spec
  refine ⟨State.x_ext fun r => ?_, ?_, ?_⟩
  · rw [State.readX_eq_readN, State.readX_eq_readN, hread _ r.isLt, hread' _ r.isLt, h.readN, h.k, h.params]
  · rw [hk, hk', h.k]
  · rw [hparams, hparams', h.params]

theorem AgreeOnInputs.bigshr (h : AgreeOnInputs s t) : AgreeOnInputs s.bigshr t.bigshr :=
  h.writeBank 0 16 (by rw [h.readN])

theorem AgreeOnInputs.bigmix (h : AgreeOnInputs s t) : AgreeOnInputs s.bigmix t.bigmix :=
  h.writeBank 0 16 (by simp only [State.gridColumn, State.gridRow, h.readN, h.params])

theorem AgreeOnInputs.rounds (h : AgreeOnInputs s t) (n : Nat) : AgreeOnInputs (s.rounds n) (t.rounds n) := by
  induction n with
  | zero => exact h
  | succ n ih => exact ih.bigsub.bigshr.bigmix

theorem AgreeOnInputs.final (h : AgreeOnInputs s t) : AgreeOnInputs s.final t.final :=
  h.writeBank 16 8 (by rw [h.readN])

/-- `BUILD` brings two states into agreement that agreed outside the grid: it overwrites the grid from x16..x31
(R178). -/
theorem AgreeOnInputs.build (hx : ∀ r : Reg, 16 ≤ r.val → s.readX r = t.readX r) (hk : s.k = t.k)
    (hparams : s.params = t.params) : AgreeOnInputs s.build t.build := by
  have hread : ∀ m, m < 32 → 16 ≤ m → s.readN m = t.readN m := fun m hm h => hx (regOf m) (by rwa [regOf_val m hm])
  refine ⟨State.x_ext fun r => ?_, hk, hparams⟩
  rw [State.readX_eq_readN, State.readX_eq_readN, s.readN_build _ r.isLt, t.readN_build _ r.isLt, hparams]
  by_cases hr : r.val < 16
  · rw [if_pos hr, if_pos hr, hread 29 (by omega) (by omega), hread (16 + r.val) (by omega) (by omega)]
  · rw [if_neg hr, if_neg hr, hread r.val r.isLt (by omega)]

end AgreeOnInputs

end Sys2Proof.Machine

namespace Sys2Proof.Proofs

open Sys2Proof.Machine

/-- Settles O50: format Z; the cells by the switch `GRID_W67`, which decides on cells 14 and 15 only
(`State.readN_build_of_lt_fourteen`). -/
theorem buildFillsTheGrid : Obligations.BuildFillsTheGrid := by
  unfold Obligations.BuildFillsTheGrid
  refine ⟨spelledBy_of_decode fun c hop => ?_, fun s => ⟨s.build, rfl, s.onlyX_build,
    fun n hn => s.readN_build_of_lt_fourteen (by omega), fun n hn => ?_, fun hper46 => ?_, fun hdefect => ?_⟩⟩
  · rw [decode, hop]
    rfl
  · exact (s.readN_build_of_lt_fourteen (by omega)).trans (by rw [show 16 + (8 + n) = 24 + n by omega])
  · exact ⟨State.readN_build_of_per46 hper46 (by omega), State.readN_build_of_per46 hper46 (by omega)⟩
  · exact ⟨State.readN_build_of_sourceDefect hdefect (.inl rfl), State.readN_build_of_sourceDefect hdefect (.inr rfl)⟩

/-- Settles O51: format Z; cell `n` is keyed with `K` advanced by the place of `n` in the order
(`State.readN_bigsub`, `idxOf_subwordCells_columnMajor`, `idxOf_subwordCells_rowMajor`), and `K` advances 16 times. -/
theorem bigsubKeysEveryCell : Obligations.BigsubKeysEveryCell := by
  unfold Obligations.BigsubKeysEveryCell
  refine ⟨spelledBy_of_decode fun c hop => ?_, fun s => ?_⟩
  · rw [decode, hop]
    rfl
  · obtain ⟨_, hk, _⟩ := s.bigsub_spec
    obtain ⟨hkzero, hkrest⟩ := byteAt_of_eq_iterate_keyAdvanced hk
    refine ⟨s.bigsub, rfl, s.onlyXK_bigsub, hkzero, hkrest, fun n hn => ?_⟩
    obtain ⟨hzero, hrest⟩ := byteAt_of_eq_iterate_keyAdvanced (key' := s.cellKey n) rfl
    refine ⟨s.cellKey n, hzero.trans ?_, hrest, fun hmix => ?_, fun hmix => ?_⟩
    · cases s.params.subwordOrder with
      | columnMajor => rw [idxOf_subwordCells_columnMajor n hn]
      | rowMajor => rw [idxOf_subwordCells_rowMajor n hn]
    · rw [s.readN_bigsub hn, hmix]
      rfl
    · rw [s.readN_bigsub hn, hmix]
      rfl

/-- Settles O52: format Z, and `BIGSHR` rotates the rows of the grid (`State.bigshr_rotatesRows`). -/
theorem bigshrRotatesTheGridRows : Obligations.BigshrRotatesTheGridRows := by
  unfold Obligations.BigshrRotatesTheGridRows
  refine ⟨spelledBy_of_decode fun c hop => ?_, fun s => ⟨s.bigshr, rfl, s.onlyX_bigshr, s.bigshr_rotatesRows⟩⟩
  rw [decode, hop]
  rfl

/-- Settles O53: format Z, and the four entries of the MDS combination of a grid column (`State.gridColumn_bigmix`) or
of a grid row (`State.gridRow_bigmix`), as the switch has it. -/
theorem bigmixMixesTheGrid : Obligations.BigmixMixesTheGrid := by
  unfold Obligations.BigmixMixesTheGrid
  refine ⟨spelledBy_of_decode fun c hop => ?_, fun s => ⟨s.bigmix, rfl, s.onlyX_bigmix, fun n b hn hb q hq => ?_⟩⟩
  · rw [decode, hop]
    rfl
  · rcases hq with ⟨haxis, rfl⟩ | ⟨haxis, rfl⟩
    · have hcol := State.gridColumn_bigmix haxis hn hb
      exact ⟨congrArg Column.a hcol, congrArg Column.b hcol, congrArg Column.c hcol, congrArg Column.d hcol⟩
    · have hrow := State.gridRow_bigmix haxis hn hb
      simp only [Nat.mul_zero, Nat.zero_add]
      exact ⟨congrArg Column.a hrow, congrArg Column.b hrow, congrArg Column.c hrow, congrArg Column.d hrow⟩

/-- Settles O54: format Z; a round is the three commands composed (`execAll_roundCommands`), of which only `BIGSUB`
advances `K` (`State.round_fields`). -/
theorem roundIsThreeCommands : Obligations.RoundIsThreeCommands := by
  unfold Obligations.RoundIsThreeCommands
  refine ⟨spelledBy_of_decode fun c hop => ?_, fun s =>
    ⟨(execAll_roundCommands s).symm, s.round, rfl, s.onlyXK_round, byteAt_of_eq_iterate_keyAdvanced s.round_fields.1⟩⟩
  rw [decode, hop]
  rfl

/-- Settles O55: format Z; the two grid words of R190 are cells `i` and `i + 8` (`finalCells_eq`), which `FINAL` folds
into V (`State.readN_final_chain`). -/
theorem finalFoldsIntoTheChainingValue : Obligations.FinalFoldsIntoTheChainingValue := by
  unfold Obligations.FinalFoldsIntoTheChainingValue
  refine ⟨spelledBy_of_decode fun c hop => ?_, fun s =>
    ⟨s.final, rfl, s.onlyX_final, fun i j l hi hjl k _ => ?_⟩⟩
  · rw [decode, hop]
    rfl
  · obtain ⟨hj, hl⟩ := finalCells_eq hi hjl
    rw [hj, hl, s.readN_final_chain hi, byteAt_xor, byteAt_xor, byteAt_xor]

/-- Settles O56: format Z; both sequences are `BUILD`, ten rounds and `FINAL` (`execAll_build_rounds_final`); the frames
of the parts compose (`State.onlyXK_compress`), `K` advances 160 times (`State.compress_fields`), and V is folded with
the grid that is left (`State.readN_compress_chain`). -/
theorem compressIsTheSplitSequence : Obligations.CompressIsTheSplitSequence := by
  unfold Obligations.CompressIsTheSplitSequence
  refine ⟨spelledBy_of_decode fun c hop => ?_, fun s => ⟨?_, ?_, s.compress, rfl, s.onlyXK_compress, ?_⟩⟩
  · rw [decode, hop]
    rfl
  · exact (execAll_build_rounds_final (execAll_replicate (fun _ => rfl) 10) s).symm
  · exact (execAll_build_rounds_final (execAll_flatten_replicate execAll_roundCommands 10) s).symm
  · obtain ⟨hzero, hrest⟩ := byteAt_of_eq_iterate_keyAdvanced s.compress_fields.1
    exact ⟨hzero, hrest, fun i hi => s.readN_compress_chain hi⟩

/-- Settles O57: after `BUILD` the two states agree on all that the later commands read (`AgreeOnInputs.build`), and the
rounds and `FINAL` keep them in agreement. -/
theorem compressIgnoresTheOldGrid : Obligations.CompressIgnoresTheOldGrid := by
  unfold Obligations.CompressIgnoresTheOldGrid
  intro s s' hx hk hparams
  have hagree : AgreeOnInputs s.compress s'.compress := ((AgreeOnInputs.build hx hk hparams).rounds 10).final
  exact ⟨s.compress, s'.compress, rfl, rfl, hagree.readX, hagree.k⟩

end Sys2Proof.Proofs
end

section
/-! PROOFS. The statements on data movement and status (`spec/46_data_and_system.md`), with the bits that `STATUS` has
and what storing a Word leaves unchanged. -/

namespace Sys2Proof.Machine

/-! ## The bits of `STATUS` (R204) -/

/-- Each value that `STATUS` takes has bits 7:3 zero, so that it is read whole (`10_state.md` R27). -/
theorem State.statusRead_of_inv {s : State} (h : s.inv) : statusRead s.status = s.status := by
  obtain ⟨hst | hst | hst, _⟩ := h <;> rw [hst] <;> rfl

/-! ## `STM` (R203) -/

/-- `STM` out of range is fault entry (`20_memory.md` R56). -/
theorem exec_stm_outside {off : Offset} {s : State} (hr : s.inMsg (byteOffset off) 16 = false) :
    exec (.stm off) s = .next (s.raise .addressRange) := by
  show execStm off s = _
  rw [execStm, hr, if_neg Bool.false_ne_true]

/-- A stored Word reads back byte by byte (`20_memory.md` R58). -/
theorem Memory.read_writeWord_of_lt (m : Memory) (a : Nat) (w : Word) {i : Nat} (hi : i < 16) :
    (m.writeWord a w).read (a + i) = some (byteAt w i) := by
  rw [Memory.read_writeWord, if_pos ⟨by omega, by omega⟩, Nat.add_sub_cancel_left]

theorem State.onlyMsg_writeWord (s : State) (a : Nat) (w : Word) : onlyMsg a 16 s (s.withMsg (s.msg.writeWord a w)) :=
  ⟨fun _ => rfl, rfl, rfl, rfl, fun b hb => by rw [State.withMsg_msg, Memory.read_writeWord, if_neg (by omega)],
    rfl, rfl, rfl⟩

end Sys2Proof.Machine

namespace Sys2Proof.Proofs

open Sys2Proof.Machine

/-- Settles O26: format MO; in range the 16 bytes read back as those of `din` (`Memory.read_writeWord_of_lt`) and every
other byte is kept (`State.onlyMsg_writeWord`); out of range the command is fault entry (`exec_stm_outside`). -/
theorem stmStoresSixteenBytes : Obligations.StmStoresSixteenBytes := by
  unfold Obligations.StmStoresSixteenBytes
  refine ⟨spelledBy_of_decode fun c hop => ?_, fun off s c d rest hp hin => ?_, fun off s hout => ?_⟩
  · rw [decode, hop]
    rfl
  · have hexec := exec_stm_inMsg (off := off) ((s.inMsg_iff _ _).2 hin)
    rw [s.din_of_pending c d rest hp] at hexec
    exact ⟨_, hexec, fun i hi => Memory.read_writeWord_of_lt s.msg _ d hi, s.onlyMsg_writeWord _ d⟩
  · exact ⟨_, exec_stm_outside ((s.inMsg_eq_false_iff _ _).2 hout), s.onlyStatus_raise .addressRange⟩

/-- Settles O22: format Z, and each command has one word (`encodeOfDecodeIsTheWord`), which for `NOP` is all-zero. -/
theorem nopChangesNothing : Obligations.NopChangesNothing := by
  unfold Obligations.NopChangesNothing
  refine ⟨spelledBy_of_decode fun c hop => ?_, fun c hc => ?_, fun s => rfl⟩
  · rw [decode, hop]
    rfl
  · calc
      c = encode .nop := (encodeOfDecodeIsTheWord c .nop hc).symm
      _ = 0x00000000#32 := rfl

/-- Settles O23: format Z, and the scalar result is `STATUS` as software reads it (`State.writeDout_zext128`), which is
all of `STATUS` where the invariant holds (`State.statusRead_of_inv`). -/
theorem rdstReadsStatus : Obligations.RdstReadsStatus := by
  unfold Obligations.RdstReadsStatus
  refine ⟨spelledBy_of_decode fun c hop => ?_, fun s => ?_⟩
  · rw [decode, hop]
    rfl
  · obtain ⟨hbyte, hzeros, honly⟩ := s.writeDout_zext128 (statusRead s.status)
    exact ⟨_, rfl, honly, hbyte, fun hinv => hbyte.trans (State.statusRead_of_inv hinv), hzeros⟩

/-- Settles O24: format R1, and the one register written (`State.onlyX_writeX`) holds what the host has on `din`
(`State.din_of_pending`). -/
theorem ldwLoadsDin : Obligations.LdwLoadsDin := by
  unfold Obligations.LdwLoadsDin
  refine ⟨spelledBy_of_decode fun c hop => ?_, fun rd s c d rest hp => ?_⟩
  · rw [decode, hop]
    rfl
  · have hread : (s.writeX rd s.din).readX rd = d := by
      rw [State.readX_writeX_self, s.din_of_pending c d rest hp]
    exact ⟨_, rfl, fun i _ => congrArg (byteAt · i) hread, hread, s.onlyX_writeX rd _⟩

/-- Settles O25: format R1, and the one field written is `DOUT` (`State.onlyDout_writeDout`). -/
theorem rdwWritesDout : Obligations.RdwWritesDout := by
  unfold Obligations.RdwWritesDout
  refine ⟨spelledBy_of_decode fun c hop => ?_, fun rs s =>
    ⟨s.writeDout (s.readX rs), rfl, fun _ _ => rfl, s.onlyDout_writeDout _⟩⟩
  rw [decode, hop]
  rfl

end Sys2Proof.Proofs
end

section
/-! PROOFS. The statements on faults and the halted block (`spec/60_exceptions.md`). What a step does to a halted block
is said once, by the word presented; that it stays halted through any number of steps is an invariant of the run
(`HaltedSince`). -/

namespace Sys2Proof.Machine

/-! ## Runs of steps -/

/-- The first step of a run that answers a next state answered one too. -/
theorem run_succ_eq_next {M : Host.Core} {n : Nat} {s t : M.State} (h : M.run (n + 1) s = .next t) :
    ∃ u, M.step s = .next u ∧ M.run n u = .next t := by
  rw [Host.Core.run] at h
  cases hstep : M.step s with
  | next u => rw [hstep] at h; exact ⟨u, rfl, h⟩
  | fault r => rw [hstep] at h; cases h
  | refused r => rw [hstep] at h; cases h

/-- What every step keeps, every run keeps. -/
theorem run_preserves {M : Host.Core} {P : M.State → Prop} (hstep : ∀ s t, P s → M.step s = .next t → P t) {n : Nat}
    {s t : M.State} (hs : P s) (h : M.run n s = .next t) : P t := by
  induction n generalizing s with
  | zero => cases h; exact hs
  | succ n ih =>
    obtain ⟨u, hu, hrun⟩ := run_succ_eq_next h
    exact ih (hstep s u hs hu) hrun

/-! ## The halted block (R215) -/

/-- A halted block discards every word but `RDST` (R215, R216). -/
theorem step_halted_of_ne_rdst {s : State} {c : Command} {d : Word} {rest : List HostInput}
    (hp : s.pending = .command c d :: rest) (hhalted : s.halted = true) (hc : c ≠ rdstWord) :
    step s = .next s.advance := by
  have haccept : s.accept c = .discarded := by simp [State.accept, hhalted, hc]
  rw [step_command s c d rest hp, haccept]

/-- `RDST` is executed whether the block is halted or not (R215). -/
theorem step_rdst {s : State} {d : Word} {rest : List HostInput} (hp : s.pending = .command rdstWord d :: rest) :
    step s = .next (s.writeDout (zext128 (statusRead s.status))).advance := by
  have haccept : s.accept rdstWord = .execute .rdst :=
    (s.accept_eq_execute_iff _ _).2 ⟨.inr rfl, decode_rdstWord⟩
  rw [step_command s rdstWord d rest hp, haccept]
  rfl

/-- What a step does to a halted block that is not being reset: it idles, discards a word, or reads `STATUS`
(R215, R226). -/
theorem step_halted_cases {s t : State} (hhalted : s.halted = true) (hrst : HostInput.rst ∉ s.pending)
    (h : step s = .next t) :
    t = s ∨ t = s.advance ∨ t = (s.writeDout (zext128 (statusRead s.status))).advance := by
  cases hp : s.pending with
  | nil =>
    have hidle : step s = .next s := by simp [step, hp]
    cases hidle.symm.trans h
    exact .inl rfl
  | cons input rest =>
    cases input with
    | rst => simp [hp] at hrst
    | command c d =>
      by_cases hc : c = rdstWord
      · subst hc
        cases (step_rdst hp).symm.trans h
        exact .inr (.inr rfl)
      · cases (step_halted_of_ne_rdst hp hhalted hc).symm.trans h
        exact .inr (.inl rfl)

/-- The block has been halted from `s` to `t`, and no reset is among what the host still presents: only `DOUT` and the
host's list may differ. -/
def HaltedSince (s t : State) : Prop :=
  t.halted = true ∧ t = { s with dout := t.dout, pending := t.pending } ∧ HostInput.rst ∉ t.pending

theorem HaltedSince.step {s t u : State} (ht : HaltedSince s t) (h : step t = .next u) : HaltedSince s u := by
  obtain ⟨hhalted, heq, hrst⟩ := ht
  have hrest : HostInput.rst ∉ t.pending.tail := fun hmem => hrst (List.mem_of_mem_tail hmem)
  rcases step_halted_cases hhalted hrst h with rfl | rfl | rfl
  · exact ⟨hhalted, heq, hrst⟩
  · exact ⟨hhalted, by rw [heq]; rfl, hrest⟩
  · exact ⟨hhalted, by rw [heq]; rfl, hrest⟩

/-! ## The two causes (R211, R212) -/

/-- The cause a command records is never `IllegalCommand` (R211). -/
theorem Reaches.status_eq_illegal {i : Instr} {s t : State} (h : Reaches i s t) (ht : t.status = 0x03#8) :
    s.status = 0x03#8 := by
  rcases h.status with hkept | ⟨rfl, _⟩
  · exact hkept.symm.trans ht
  · rw [State.raise_status] at ht
    exact absurd ht (by decide)

/-- Fault entry with cause 2 (R212, R214). -/
theorem State.raise_addressRange (s : State) : s.raise .addressRange = { s with status := 0x05#8 } := by
  rw [State.raise, statusOfCause_eq]

/-- A command that changes `STATUS` accesses `MSG` outside its range (R212). -/
theorem outside_of_status_ne {i : Instr} {s t : State} (h : exec i s = .next t) (hne : t.status ≠ s.status) :
    (∃ off, i = .stm off ∧ s.inMsg (byteOffset off) 16 = false) ∨
      (∃ rd off, i = .toword rd off ∧ s.inMsg (byteOffset off) 16 = false) ∨
        ∃ idx, i = .toblk idx ∧ s.inMsg (blockOffset idx) 128 = false := by
  rcases (exec_next_reaches h).status with hkept | ⟨_, ⟨off, rfl⟩ | ⟨rd, off, rfl⟩ | ⟨idx, rfl⟩⟩
  · exact absurd hkept hne
  · rcases execStm_cases off s with ⟨_, e⟩ | ⟨hout, _⟩
    · cases e.symm.trans h; exact absurd rfl hne
    · exact .inl ⟨off, rfl, hout⟩
  · rcases execToword_cases rd off s with ⟨_, _, e⟩ | ⟨_, _, e⟩ | ⟨hout, _⟩
    · cases e.symm.trans h; exact absurd rfl hne
    · cases e.symm.trans h
    · exact .inr (.inl ⟨rd, off, rfl, hout⟩)
  · rcases execToblk_cases idx s with ⟨_, _, e⟩ | ⟨_, _, e⟩ | ⟨hout, _⟩
    · cases e.symm.trans h; exact absurd rfl hne
    · cases e.symm.trans h
    · exact .inr (.inr ⟨idx, rfl, hout⟩)

end Sys2Proof.Machine

namespace Sys2Proof.Proofs

open Sys2Proof.Machine

/-- Settles O10: having been halted since `s` is kept by every step (`HaltedSince.step`), so by every run
(`run_preserves`), and it leaves `DOUT` and the host's list alone to differ. -/
theorem haltedUntilReset : Obligations.HaltedUntilReset := by
  unfold Obligations.HaltedUntilReset
  intro n s t hhalted hrst hrun
  have hsince : HaltedSince s t := run_preserves (fun _ _ => HaltedSince.step) ⟨hhalted, rfl, hrst⟩ hrun
  obtain ⟨hthalted, heq, _⟩ := hsince
  refine ⟨hthalted, ?_⟩
  rw [heq]
  exact ⟨rfl, rfl, fun _ => rfl, fun _ => rfl, rfl⟩

/-- Settles O8: an illegal word is fault entry with cause 1 (`step_of_illegal`), and the only cause a command records is
cause 2 (`Reaches.status_eq_illegal`). -/
theorem illegalCommandRecordsCauseOneOnly : Obligations.IllegalCommandRecordsCauseOneOnly := by
  unfold Obligations.IllegalCommandRecordsCauseOneOnly
  exact ⟨fun s c d rest e hp hrun hd => step_of_illegal hp hrun ((wellFormedWord_eq_false_iff c).2 ⟨e, hd⟩),
    fun i s t h => (exec_next_reaches h).status_eq_illegal⟩

/-- Settles O46: out of range each of the three is fault entry with cause 2 (`State.raise_addressRange`), and a command
that changes `STATUS` is one of them out of range (`outside_of_status_ne`). -/
theorem addressRangeIsRaisedOutsideMsg : Obligations.AddressRangeIsRaisedOutsideMsg := by
  unfold Obligations.AddressRangeIsRaisedOutsideMsg
  refine ⟨fun off s hout => ?_, fun rd off s hout => ?_, fun idx s hout => ?_, fun i s t h hne => ?_⟩
  · rw [exec_stm_outside ((s.inMsg_eq_false_iff _ _).2 hout), s.raise_addressRange]
  · rw [exec_toword_outside rd ((s.inMsg_eq_false_iff _ _).2 hout), s.raise_addressRange]
  · rw [exec_toblk_outside ((s.inMsg_eq_false_iff _ _).2 hout), s.raise_addressRange]
  · rcases outside_of_status_ne h hne with ⟨off, rfl, hout⟩ | ⟨rd, off, rfl, hout⟩ | ⟨idx, rfl, hout⟩
    · exact .inl ⟨off, rfl, (s.inMsg_eq_false_iff _ _).1 hout⟩
    · exact .inr (.inl ⟨rd, off, rfl, (s.inMsg_eq_false_iff _ _).1 hout⟩)
    · exact .inr (.inr ⟨idx, rfl, (s.inMsg_eq_false_iff _ _).1 hout⟩)

/-- Settles O9, by the word presented: `RDST` (`step_rdst`) or any other (`step_halted_of_ne_rdst`). -/
theorem haltedBlockDiscardsAllButRdst : Obligations.HaltedBlockDiscardsAllButRdst := by
  unfold Obligations.HaltedBlockDiscardsAllButRdst
  intro s c d rest hhalted hp
  refine ⟨fun hc => ?_, fun hc => ?_⟩
  · rw [step_halted_of_ne_rdst hp hhalted hc, State.advance_eq hp]
  · rw [hc] at hp
    exact (step_rdst hp).trans (congrArg _ (State.advance_eq (s := s.writeDout _) hp))

end Sys2Proof.Proofs
end

section
/-! PROOFS. The statements on reset, repeated commands and the host's padding (`spec/70_reset_and_hazards.md`). Every
byte of a padded message is given once, by its address (`getElem?_taggedBytes`, `getElem?_padBytes_bitLength`); the
fields are read off it. -/

namespace Sys2Proof.Machine

/-! ## Commands issued twice (R256) -/

/-- Folding the same three Words in twice cancels. -/
theorem xor_three_twice (v a b c : Word) : v ^^^ a ^^^ b ^^^ c ^^^ a ^^^ b ^^^ c = v := by
  calc v ^^^ a ^^^ b ^^^ c ^^^ a ^^^ b ^^^ c
      = v ^^^ ((a ^^^ b ^^^ c) ^^^ (a ^^^ b ^^^ c)) := by simp only [BitVec.xor_assoc]
    _ = v := by rw [BitVec.xor_self, BitVec.xor_zero]

/-- `FINAL` reads the Block and the grid, which it leaves alone, so that a second one cancels the first (R190, R256). -/
theorem State.final_final (s : State) : s.final.final = s := by
  refine State.ext (fun r => ?_) rfl rfl rfl rfl rfl rfl rfl
  rw [State.readX_eq_readN, State.readX_eq_readN]
  have hr := r.isLt
  by_cases hv : 16 ≤ r.val ∧ r.val < 24
  · have hkept : ∀ m, m < 32 → ¬(16 ≤ m ∧ m < 24) → s.final.readN m = s.readN m :=
      fun m hm hout => by rw [s.readN_final m hm, if_neg hout]
    rw [s.final.readN_final _ hr, if_pos hv, hkept (r.val + 8) (by omega) (by omega),
      hkept (r.val - 16) (by omega) (by omega), hkept (r.val - 8) (by omega) (by omega), s.readN_final _ hr, if_pos hv,
      xor_three_twice]
  · rw [s.final.readN_final _ hr, if_neg hv, s.readN_final _ hr, if_neg hv]

/-- `BUILD` reads V and the Block only, which it leaves alone (R178, R256). -/
theorem State.build_build (s : State) : s.build.build = s.build := by
  refine State.ext (fun r => ?_) rfl rfl rfl rfl rfl rfl rfl
  rw [State.readX_eq_readN, State.readX_eq_readN, s.build.readN_build _ r.isLt]
  by_cases hgrid : r.val < 16
  · have hkept : ∀ m, m < 32 → 16 ≤ m → s.build.readN m = s.readN m :=
      fun m hm h => by rw [s.readN_build m hm, if_neg (by omega)]
    rw [if_pos hgrid, hkept 29 (by omega) (by omega), hkept (16 + r.val) (by omega) (by omega),
      s.readN_build _ r.isLt, if_pos hgrid, State.build_params]
  · rw [if_neg hgrid]

/-! ## The padded message (R237 to R241) -/

/-- The padded length is the least multiple of 128 with room for the message and 18 bytes more (R237). -/
theorem padTarget_spec (len : Nat) :
    padTarget len % 128 = 0 ∧ len + 18 ≤ padTarget len ∧ padTarget len < len + 18 + 128 := by
  unfold padTarget
  omega

/-- The message in a buffer of `t` bytes, zeros after it (R238). -/
theorem getElem?_append_zeros (m : List Byte) {t j : Nat} (hj : j < t) :
    (m ++ List.replicate (t - m.length) 0x00#8)[j]? = if j < m.length then m[j]? else some 0x00#8 := by
  rw [List.getElem?_append]
  by_cases h : j < m.length
  · rw [if_pos h, if_pos h]
  · rw [if_neg h, if_neg h, List.getElem?_replicate, if_pos (by omega)]

/-- The last `n` bytes of a buffer of `t` bytes set to `f 0`, `f 1`, …, the last byte first (R241). -/
def setBack (f : Nat → Byte) (t n : Nat) (p : List Byte) : List Byte :=
  (List.range n).foldl (fun q i => q.set (t - 1 - i) (f i)) p

theorem setBack_succ (f : Nat → Byte) (t n : Nat) (p : List Byte) :
    setBack f t (n + 1) p = (setBack f t n p).set (t - 1 - n) (f n) := by
  rw [setBack, List.range_succ, List.foldl_append, List.foldl_cons, List.foldl_nil, setBack]

theorem length_setBack (f : Nat → Byte) (t n : Nat) (p : List Byte) : (setBack f t n p).length = p.length := by
  induction n with
  | zero => rfl
  | succ n ih => rw [setBack_succ, List.length_set, ih]

theorem getElem?_setBack (f : Nat → Byte) {p : List Byte} {t n j : Nat} (hp : p.length = t) (hn : n ≤ t) (hj : j < t) :
    (setBack f t n p)[j]? = if t ≤ j + n then some (f (t - 1 - j)) else p[j]? := by
  induction n with
  | zero => exact (if_neg (by omega)).symm
  | succ n ih =>
    rw [setBack_succ, List.getElem?_set_of_lt _ _ (by rw [length_setBack, hp]; exact hj), ih (by omega)]
    by_cases h : t - 1 - n = j
    · rw [if_pos h, if_pos (by omega), show t - 1 - j = n by omega]
    · rw [if_neg h]
      exact if_congr (by omega) rfl rfl

/-- The buffer after the marker and the tag, which is written later and may overwrite the marker (R238 to R240). -/
def taggedBytes (m : List Byte) (t : Nat) : List Byte :=
  (((m ++ List.replicate (t - m.length) 0x00#8).set m.length 0x80#8).set (t - 18) 0x00#8).set (t - 17) 0x02#8

theorem length_taggedBytes {m : List Byte} {t : Nat} (h : m.length ≤ t) : (taggedBytes m t).length = t := by
  simp [taggedBytes, h]

theorem getElem?_taggedBytes (m : List Byte) {t j : Nat} (hj : j < t) (ht : m.length ≤ t) :
    (taggedBytes m t)[j]? =
      if t - 17 = j then some 0x02#8 else if t - 18 = j then some 0x00#8
      else if m.length = j then some 0x80#8 else if j < m.length then m[j]? else some 0x00#8 := by
  have hbuffer : j < (m ++ List.replicate (t - m.length) 0x00#8).length := by
    rw [List.length_append, List.length_replicate]
    omega
  rw [taggedBytes, List.getElem?_set_of_lt _ _ (by simpa only [List.length_set] using hbuffer),
    List.getElem?_set_of_lt _ _ (by simpa only [List.length_set] using hbuffer),
    List.getElem?_set_of_lt _ _ hbuffer, getElem?_append_zeros m hj]

theorem padBytes_eq_setBack (m : List Byte) :
    padBytes m =
      setBack (bitLengthByte m.length) (padTarget m.length) 16 (taggedBytes m (padTarget m.length)) := rfl

theorem length_padBytes (m : List Byte) : (padBytes m).length = padTarget m.length := by
  obtain ⟨_, hroom, _⟩ := padTarget_spec m.length
  rw [padBytes_eq_setBack, length_setBack, length_taggedBytes (by omega)]

/-- The last 16 bytes are the bit length, its least significant byte last (R241). -/
theorem getElem?_padBytes_bitLength (m : List Byte) {i : Nat} (hi : i < 16) :
    (padBytes m)[padTarget m.length - 1 - i]? = some (bitLengthByte m.length i) := by
  obtain ⟨_, hroom, _⟩ := padTarget_spec m.length
  rw [padBytes_eq_setBack, getElem?_setBack _ (length_taggedBytes (by omega)) (by omega) (by omega),
    if_pos (by omega), show padTarget m.length - 1 - (padTarget m.length - 1 - i) = i by omega]

/-- Before the last 16 bytes the bit length changes nothing (R241). -/
theorem getElem?_padBytes_front (m : List Byte) {j : Nat} (hj : j + 16 < padTarget m.length) :
    (padBytes m)[j]? = (taggedBytes m (padTarget m.length))[j]? := by
  obtain ⟨_, hroom, _⟩ := padTarget_spec m.length
  rw [padBytes_eq_setBack, getElem?_setBack _ (length_taggedBytes (by omega)) (by omega) (by omega),
    if_neg (by omega)]

end Sys2Proof.Machine

namespace Sys2Proof.Proofs

open Sys2Proof.Machine

/-- Settles O58: a second `FINAL` cancels the first (`State.final_final`), a second `BUILD` finds what it would write
(`State.build_build`). -/
theorem finalCancelsAndBuildRepeats : Obligations.FinalCancelsAndBuildRepeats := by
  unfold Obligations.FinalCancelsAndBuildRepeats
  have hfinal (u : State) : exec .final u = .next u.final := rfl
  have hbuild (u : State) : exec .build u = .next u.build := rfl
  refine fun s => ⟨?_, ?_⟩
  · rw [execAll_cons_of_next (hfinal s), execAll_singleton, hfinal, s.final_final]
  · rw [execAll_cons_of_next (hbuild s), execAll_singleton, hbuild, s.build_build, hbuild]

/-- Settles O59: the message is padded because its bit length fits; then its length (`padTarget_spec`), the last 16
bytes (`getElem?_padBytes_bitLength`) and, before them, the bytes of the tagged buffer (`getElem?_taggedBytes`). -/
theorem paddingHasItsFields : Obligations.PaddingHasItsFields := by
  unfold Obligations.PaddingHasItsFields
  intro m hfits
  obtain ⟨hmultiple, hroom, hleast⟩ := padTarget_spec m.length
  have hfront {j : Nat} (hj : j + 16 < padTarget m.length) :=
    (getElem?_padBytes_front m hj).trans (getElem?_taggedBytes m (by omega) (by omega))
  refine ⟨padBytes m, if_pos hfits, ?_⟩
  rw [length_padBytes]
  refine ⟨hmultiple, hroom, hleast, fun i hi => ?_, fun hmarker => ?_, fun i hi hend => ?_, ?_, ?_,
    fun i hi => getElem?_padBytes_bitLength m hi⟩
  · rw [hfront (by omega), if_neg (by omega), if_neg (by omega), if_neg (by omega), if_pos hi]
  · rw [hfront (by omega), if_neg (by omega), if_neg (by omega), if_pos rfl]
  · rw [hfront (by omega), if_neg (by omega), if_neg (by omega), if_neg (by omega), if_neg (by omega)]
  · rw [hfront (by omega), if_neg (by omega), if_pos rfl]
  · rw [hfront (by omega), if_pos rfl]

/-- Settles O11, by the fields of the reset step. -/
theorem resetStepClearsStatusAndDout : Obligations.ResetStepClearsStatusAndDout := by
  unfold Obligations.ResetStepClearsStatusAndDout
  intro s rest hp
  refine ⟨s.takeReset.advance, by simp [step, hp], rfl, rfl, rfl, ?_⟩
  rw [State.advance_pending, State.takeReset_pending, hp, List.tail_cons]

end Sys2Proof.Proofs
end
